-- ==== Sys2Proof/Word.lean ====
section
/-! DEFINITION. The one word of the machine. Every datum an instruction works on, every Program Store entry and
every unit of the two byte streams is 8 bits wide (`00_scope.md` R5, R6; `20_memory.md` R54); every index is a natural
number (R6, R22, R23). -/

namespace Sys2Proof

/-- An unsigned 8-bit value `0 .. 255`; bit 0 is the least significant bit (R6). Tape cells, input bytes and output
units are bytes. -/
abbrev Byte := BitVec 8

/-- One Program Store entry: an 8-bit symbol code (R70). -/
abbrev Symbol := BitVec 8

end Sys2Proof
end

