-- ==== Sys2Proof/Config.lean ====
section
/-! DEFINITION. The construction parameters of `00_scope.md` R5 that are not the program: fixed at reset, constant for
the whole run. They are held in the state (field `cfg`), so that a claim can be made for every value of them. -/

namespace Sys2Proof

/-- What `,` does when the input source answers `EOF` (R5, R141). -/
inductive EofPolicy where
  /-- The cell keeps its value and the run goes on; the default. -/
  | leaveUnchanged
  /-- The step raises `InputExhausted`. -/
  | fail
  deriving DecidableEq, Repr

/-- The CFG interface of `10_state.md` R32: the parameters `N`, `eof_policy` and `GLYPH` of R5. -/
structure Config where
  /-- `N`, the tape length in cells; a construction with `N = 0` is refused (R192). -/
  n : Nat
  /-- `eof_policy`. -/
  eofPolicy : EofPolicy
  /-- `GLYPH`, the output unit that stands for a byte that is not displayable (R143). -/
  glyph : Byte
  deriving DecidableEq, Repr

/-- The values R5 gives "for this hardware": `N = 30000`, `LeaveUnchanged`, `GLYPH = 0x5F`. -/
def Config.default : Config where
  n := 30000
  eofPolicy := .leaveUnchanged
  glyph := 0x5F

end Sys2Proof
end

