-- ==== Sys2Proof/Machine/State.lean ====
section
/-! DEFINITION. The state of the engine (`10_state.md`), as plain data, with the reasons a step can stop and the state
after reset. The configuration, the program and the Jump Table are held in the state too: they are parameters of the
step function in R21, R25 and R90, and no step changes them. -/

namespace Sys2Proof.Machine

/-- The tape as (index, value) pairs: indices strictly rising, no pair whose value is what an unlisted index reads as
(`Memory.wf` of Machine/Memory.lean). DESIGN CHOICE (log entry 13), safe. -/
abbrev Memory := List Host.Cell

/-- The Jump Table (R25): a finite partial map from bracket positions to bracket positions, as (position, entry)
pairs in the order the Bracket Resolver records them. -/
abbrev JumpTable := List (Nat × Nat)

/-- The diagnostic of `MalformedProgram` (`60_exceptions.md` R161). -/
inductive BracketError where
  /-- The scan met the `]` at position `p` with an empty stack. -/
  | unmatchedClose (p : Nat)
  /-- The scan ended with a stack whose top is the `[` at position `p`. -/
  | unmatchedOpen (p : Nat)
  deriving DecidableEq, Repr

/-- The three failure reasons of R160, each with its diagnostic. A failure is not a stop of the model: the step that
raises one answers a next state whose `fail` holds it (R166). -/
inductive Failure where
  /-- Raised by the Bracket Resolver, at construction only (R161). -/
  | malformedProgram (e : BracketError)
  /-- Raised by the `,` at position `p` (R162). -/
  | inputExhausted (p : Nat)
  /-- Raised by the `.` at position `p` (R163). -/
  | outputFailure (p : Nat)
  deriving DecidableEq, Repr

/-- The answer to one `InReq()` (R31). -/
inductive InAnswer where
  | byte (b : Byte)
  | eof
  deriving DecidableEq, Repr

/-- The answer to one `OutWrite(u)` (R7, R140). -/
inductive OutAnswer where
  | accept
  | reject
  deriving DecidableEq, Repr

/-- What the environment answers to the requests of one stream from now on: first the listed answers, one a request,
then `thereafter` to every later request; `thereafter = none` is an environment that does not answer (R33). Every
finite behaviour of the general model of R31 and R149 is some script. DESIGN CHOICE (log entry 7), safe for a run of any
given number of steps. -/
structure Script (α : Type) where
  answers : List α
  thereafter : Option α
  deriving DecidableEq, Repr

/-- The state of the engine and of its two streams. DESIGN CHOICE (log entry 6), safe: the parameters of the step
function are fields. DEDUCED (log entry 14), safe: the resolver's stack is none (R28). -/
structure State where
  /-- The construction parameters `N`, `eof_policy`, `GLYPH` (R5); constant for the run. -/
  cfg : Config
  /-- The Program Store (R21); constant for the run. `L` is its length. -/
  prog : List Symbol
  /-- The Jump Table (R25), absent for a malformed program (R38); constant for the run. -/
  jt : Option JumpTable
  /-- The instruction pointer (R22). -/
  ip : Nat
  /-- The data pointer (R23). -/
  dp : Nat
  /-- The tape (R24). -/
  tape : Memory
  /-- The failure register (R26). -/
  fail : Option Failure
  /-- The units the output sink accepted, oldest first (R30). -/
  out : List Byte
  /-- The ghost trace of the same cells before formatting (R30). -/
  outRaw : List Byte
  /-- The input source's coming answers (R31). -/
  inp : Script InAnswer
  /-- The output sink's coming answers (R140); the model's own field. -/
  sink : Script OutAnswer
  deriving DecidableEq, Repr

/-- The run state (R27), derived from `fail` and `ip`. -/
inductive RunState where
  | running
  | halted
  | failed (f : Failure)
  deriving DecidableEq, Repr

/-- Why there is no step. Each is safe: the model stops where the spec says that nothing happens. DESIGN CHOICE (log
entries 8 and 9): such a state has no next state, rather than itself as the next. -/
inductive Fault where
  /-- The run state is `Halted`: terminal, there is no step (R91). Raised by every meaning and by `step`. -/
  | halted
  /-- The run state is `Failed(f)`: terminal, there is no step (R91, R168). Raised by every meaning and by `step`. -/
  | failed (f : Failure)
  /-- A `,` whose request the environment does not answer: stuck, neither halted nor failed (R33, U13). Raised by
  `execInput`. -/
  | awaitingInput
  /-- A `.` whose write the environment does not answer: stuck, neither halted nor failed (R33, U13). Raised by
  `execOutput`. -/
  | awaitingOutput
  deriving DecidableEq, Repr

/-- What has no meaning. Each is safe: the model stops. -/
inductive Refusal where
  /-- An instruction that has no meaning yet (no arm of `exec` answers this). -/
  | notModelled (mnemonic : String)
  /-- The state breaks an invariant of R35: unreachable, and refused as R36 and U17 ask. Raised by every meaning and
  by `step`. DEDUCED (log entry 10). -/
  | unreachableState
  /-- A jump asks for a Jump Table entry at a position that has none (R25: "no entry and is never read"). Raised by
  `execLoopOpen` and `execLoopClose` only when they are applied at a position whose symbol is no bracket, which
  `step` never does. DESIGN CHOICE (log entry 11). -/
  | noJumpEntry
  /-- A construction with `N = 0` (R192, U2). Raised by `construct` only. -/
  | zeroLengthTape
  deriving DecidableEq, Repr

/-- The machine right after reset, with the default configuration and no program loaded: the empty program, whose
table is empty (R37, `43_loop.md` R124; log entry 1). Input: none, end of input for ever. Output: every write accepted. DESIGN
CHOICE (both streams are the environment's; log entries 2 and 3); the other fields are the spec's. -/
def State.reset : State where
  cfg := Config.default
  prog := []
  jt := some []
  ip := 0
  dp := 0
  tape := []
  fail := none
  out := []
  outRaw := []
  inp := { answers := [], thereafter := some .eof }
  sink := { answers := [], thereafter := some .accept }

end Sys2Proof.Machine
end

