-- ==== Sys2Proof/Machine/Formatter.lean ====
section
/-! DEFINITION. The Output Formatter (`44_io.md` R143, R144). -/

namespace Sys2Proof.Machine

/-- The bytes that are emitted as they are: 9 .. 13 and 32 .. 126 (R143, R144). -/
def displayable (b : Byte) : Bool :=
  (decide (9 ≤ b.toNat) && decide (b.toNat ≤ 13)) || (decide (32 ≤ b.toNat) && decide (b.toNat ≤ 126))

/-- `fmt(b)` of R143: the byte itself if it is displayable, else the placeholder `GLYPH`. -/
def fmt (glyph b : Byte) : Byte :=
  if displayable b then b else glyph

end Sys2Proof.Machine
end

