-- ==== Sys2Proof/Machine/Memory.lean ====
section
/-! DEFINITION. The tape's storage: what an unlisted cell reads as, reading and writing one cell, the canonical form. -/

namespace Sys2Proof.Machine

/-- What a cell that no pair lists reads as: every cell is 0 at reset (`10_state.md` R24). -/
def Memory.unlisted : Byte := 0

/-- The value of cell `a`. -/
def Memory.read : Memory → Nat → Byte
  | [], _ => Memory.unlisted
  | (b, v) :: m, a => if a = b then v else Memory.read m a

/-- The tape with cell `a` holding `v` and every other cell as before; the canonical form is kept. -/
def Memory.write : Memory → Nat → Byte → Memory
  | [], a, v => if v = Memory.unlisted then [] else [(a, v)]
  | (b, w) :: m, a, v =>
    if a < b then (if v = Memory.unlisted then (b, w) :: m else (a, v) :: (b, w) :: m)
    else if a = b then (if v = Memory.unlisted then m else (a, v) :: m)
    else (b, w) :: Memory.write m a v

/-- The canonical form, for pairs whose indices are all at least `lo`. -/
def Memory.wfFrom : Nat → Memory → Bool
  | _, [] => true
  | lo, (a, v) :: m => decide (lo ≤ a) && decide (v ≠ Memory.unlisted) && Memory.wfFrom (a + 1) m

/-- The canonical form: indices strictly rising, no pair equal to what an unlisted index reads as. -/
def Memory.wf (m : Memory) : Bool :=
  Memory.wfFrom 0 m

/-- Every listed index is one of the `n` cells of the tape (R24). -/
def Memory.within (n : Nat) (m : Memory) : Bool :=
  m.all fun c => decide (c.1 < n)

end Sys2Proof.Machine
end

