-- ==== Sys2Proof/Syntax.lean ====
section
/-! DEFINITION. The instructions: one constructor per row of `spec/opcode_table.json` (`30_encoding.md` R72, R73). No
instruction has an explicit operand (R74). -/

namespace Sys2Proof

/-- The nine decode classes of R72. -/
inductive Instr where
  /-- RIGHT, `>`: move the data pointer one cell up the ring (R101). -/
  | right
  /-- LEFT, `<`: move the data pointer one cell down the ring (R102). -/
  | left
  /-- INC, `+`: add one to the addressed cell, modulo 256 (R111). -/
  | inc
  /-- DEC, `-`: subtract one from the addressed cell, modulo 256 (R112). -/
  | dec
  /-- OPEN, `[`: jump past the matching `]` if the addressed cell is zero (R128). -/
  | loopOpen
  /-- CLOSE, `]`: jump to after the matching `[` if the addressed cell is not zero (R129). -/
  | loopClose
  /-- OUT, `.`: emit the addressed cell (R140). -/
  | output
  /-- IN, `,`: read one byte into the addressed cell (R141). -/
  | input
  /-- NOP: any other symbol (R150). It keeps its code, so that an encoding loses nothing; the code has no effect. -/
  | nop (code : Symbol)
  deriving DecidableEq, Repr

/-- `>` (R71). -/
def codeRight : Symbol := 0x3E
/-- `<` (R71). -/
def codeLeft : Symbol := 0x3C
/-- `+` (R71). -/
def codeInc : Symbol := 0x2B
/-- `-` (R71). -/
def codeDec : Symbol := 0x2D
/-- `[` (R71). -/
def codeOpen : Symbol := 0x5B
/-- `]` (R71). -/
def codeClose : Symbol := 0x5D
/-- `.` (R71). -/
def codeOut : Symbol := 0x2E
/-- `,` (R71). -/
def codeIn : Symbol := 0x2C

/-- The closed alphabet (R72): the codes of the eight symbols, in the order of R71. -/
def alphabet : List Symbol :=
  [codeRight, codeLeft, codeInc, codeDec, codeOpen, codeClose, codeOut, codeIn]

end Sys2Proof
end

