-- ==== Sys2Proof/WellFormed.lean ====
section
/-! DEFINITION. Which terms of `Instr` stand for a symbol of the Program Store. -/

namespace Sys2Proof

/-- The one check there is: a NOP carries a code of the ignore class, that is one of the 248 codes outside the
alphabet (R72, R75). -/
def Instr.wellFormed : Instr → Bool
  | .right | .left | .inc | .dec | .loopOpen | .loopClose | .output | .input => true
  | .nop code => !alphabet.contains code

end Sys2Proof
end

