-- ==== Sys2Proof/Decode.lean ====
section
/-! DEFINITION. The decoder (`30_encoding.md` R72), total on every code; on a sequence of bytes it rejects only the
empty one, by name. The encoder after it is written from the same table (R71). -/

namespace Sys2Proof

/-- `decode(c)` of R72: the comparison is on the full 8 bits, and every code outside the alphabet is NOP (R75). -/
def decode (c : Symbol) : Instr :=
  if c = codeRight then .right
  else if c = codeLeft then .left
  else if c = codeInc then .inc
  else if c = codeDec then .dec
  else if c = codeOpen then .loopOpen
  else if c = codeClose then .loopClose
  else if c = codeOut then .output
  else if c = codeIn then .input
  else .nop c

/-- Why a sequence of bytes holds no instruction. -/
inductive DecodeError where
  /-- There is no symbol: the sequence is empty. No code is rejected (R72). -/
  | noSymbol
  deriving DecidableEq, Repr

/-- The first instruction of a sequence of Program Store entries and the entries after it: every instruction is
exactly one symbol long (R70). -/
def decodeSymbols : List Symbol → Except DecodeError (Instr × List Symbol)
  | [] => .error .noSymbol
  | c :: rest => .ok (decode c, rest)

/-- The symbol code of an instruction (R71, R73). -/
def encode : Instr → Symbol
  | .right => codeRight
  | .left => codeLeft
  | .inc => codeInc
  | .dec => codeDec
  | .loopOpen => codeOpen
  | .loopClose => codeClose
  | .output => codeOut
  | .input => codeIn
  | .nop code => code

/-- A program as its Program Store entries, instruction 0 first (R78). -/
def encodeProgram (is : List Instr) : List Symbol :=
  is.map encode

/-- The first Program Store entry of an instruction that the host gives as a number: bit 0 is the least significant
bit of the first entry, `nbits` says how many bits are given, and every bit above them is 0. -/
def symbolOfWord (nbits w : Nat) : Symbol :=
  BitVec.ofNat 8 (w % 2 ^ nbits)

/-- The instruction the decoder reads from the host's numbering of its bits. -/
def decodeTableWord (nbits w : Nat) : Option Instr :=
  match decodeSymbols [symbolOfWord nbits w] with
  | .ok (i, _) => some i
  | .error _ => none

end Sys2Proof
end

