-- ==== Sys2Proof/Machine/Resolver.lean ====
section
/-! DEFINITION. The Bracket Resolver (`43_loop.md` R120 to R127): the scan that builds the Jump Table or finds the
program malformed, and the scan engine that R126 admits in place of the table. -/

namespace Sys2Proof.Machine

/-- The outcome of the Bracket Resolver's scan. -/
inductive Resolution where
  /-- The program is well-formed; this is its table. -/
  | table (t : JumpTable)
  /-- The program is malformed (R124). -/
  | malformed (e : BracketError)
  deriving DecidableEq, Repr

/-- The scan of R123 from position `i` on, with the stack of open positions (top first) and the table so far. -/
def resolveFrom : List Symbol → Nat → List Nat → JumpTable → Resolution
  | [], _, [], t => .table t
  | [], _, o :: _, _ => .malformed (.unmatchedOpen o)
  | c :: cs, i, stack, t =>
    match decode c with
    | .loopOpen => resolveFrom cs (i + 1) (i :: stack) t
    | .loopClose =>
      match stack with
      | [] => .malformed (.unmatchedClose i)
      | o :: below => resolveFrom cs (i + 1) below ((i, o) :: (o, i) :: t)
    | .right | .left | .inc | .dec | .output | .input | .nop _ => resolveFrom cs (i + 1) stack t

/-- `resolve(prog)` of R123. -/
def resolve (prog : List Symbol) : Resolution :=
  resolveFrom prog 0 [] []

/-- The table a resolution yields; a malformed program has none (R25). -/
def Resolution.toTable? : Resolution → Option JumpTable
  | .table t => some t
  | .malformed _ => none

/-- The failure a resolution raises (R161). -/
def Resolution.failure? : Resolution → Option Failure
  | .table _ => none
  | .malformed e => some (.malformedProgram e)

/-- A program is well-formed when `resolve` returns a table (R124). -/
def programWellFormed (prog : List Symbol) : Bool :=
  (resolve prog).toTable?.isSome

/-- `jt[i]` (R121): the entry at a position, if there is one. -/
def JumpTable.entry : JumpTable → Nat → Option Nat
  | [], _ => none
  | (j, k) :: t, i => if i = j then some k else JumpTable.entry t i

/-- `scan_forward` of R126 from position `j` on, `depth` opens deep; `none` if the scan runs off the end, which the
spec gives no meaning (U6). DESIGN CHOICE (log entry 17), safe. -/
def scanForwardFrom : List Symbol → Nat → Nat → Option Nat
  | [], _, _ => none
  | c :: cs, j, depth =>
    match decode c with
    | .loopOpen => scanForwardFrom cs (j + 1) (depth + 1)
    | .loopClose => if depth = 1 then some j else scanForwardFrom cs (j + 1) (depth - 1)
    | .right | .left | .inc | .dec | .output | .input | .nop _ => scanForwardFrom cs (j + 1) depth

/-- `scan_forward(i)` of R126. -/
def scanForward (prog : List Symbol) (i : Nat) : Option Nat :=
  scanForwardFrom (prog.drop (i + 1)) (i + 1) 1

/-- `scan_backward` of R126 over the symbols before a position, nearest first, `depth` closes deep. The position of
the symbol looked at is the number of symbols after it in the list. -/
def scanBackwardFrom : List Symbol → Nat → Option Nat
  | [], _ => none
  | c :: cs, depth =>
    match decode c with
    | .loopClose => scanBackwardFrom cs (depth + 1)
    | .loopOpen => if depth = 1 then some cs.length else scanBackwardFrom cs (depth - 1)
    | .right | .left | .inc | .dec | .output | .input | .nop _ => scanBackwardFrom cs depth

/-- `scan_backward(j)` of R126. -/
def scanBackward (prog : List Symbol) (j : Nat) : Option Nat :=
  scanBackwardFrom (prog.take j).reverse 1

end Sys2Proof.Machine
end

