-- ==== Sys2Proof/Machine/Ops.lean ====
section
/-! DEFINITION. The shared operations over the state: the primitives of `00_scope.md` R7, the run state, the legality
of a state (R35), the guard under which every instruction rule runs, and failure entry. -/

namespace Sys2Proof.Machine

/-- What a meaning answers. -/
abbrev Result := Host.Outcome State Fault Refusal

/-! ### The primitives -/

/-- `MemRead(a, 1)` (`20_memory.md` R58); `0 ≤ a < N` is the guard's (`whenRunning`), since the only address is `dp`. -/
def State.memRead (s : State) (a : Nat) : Byte :=
  s.tape.read a

/-- `MemWrite(a, 1, v)` (R59); `0 ≤ a < N` is the guard's, as for `memRead`. -/
def State.memWrite (s : State) (a : Nat) (v : Byte) : State :=
  { s with tape := s.tape.write a v }

/-- `ip <- t` (R7). -/
def State.setIp (s : State) (t : Nat) : State :=
  { s with ip := t }

/-- `dp <- t` (R7). -/
def State.setDp (s : State) (t : Nat) : State :=
  { s with dp := t }

/-- `ip <- ip + 1` (`40_dispatch.md` R95). -/
def State.advance (s : State) : State :=
  s.setIp (s.ip + 1)

/-- `raise` (`60_exceptions.md` R166): taking a failure. The failure register takes the reason and its diagnostic and
nothing else of the step happens. Nothing is saved and control goes nowhere; there is no return (R168). -/
def State.raise (s : State) (f : Failure) : State :=
  { s with fail := some f }

/-- The appends of an accepted `.` (`44_io.md` R140): the formatted unit `u` and the raw cell value `v`. -/
def State.emit (s : State) (u v : Byte) : State :=
  { s with out := s.out ++ [u], outRaw := s.outRaw ++ [v] }

/-- The input source after a request. -/
def State.setInp (s : State) (k : Script InAnswer) : State :=
  { s with inp := k }

/-- The output sink after a write. -/
def State.setSink (s : State) (k : Script OutAnswer) : State :=
  { s with sink := k }

/-- One request to a stream: the environment's answer and what is left, or nothing while it does not answer (R33). -/
def Script.request {α : Type} (k : Script α) : Option (α × Script α) :=
  match k.answers with
  | a :: rest => some (a, { k with answers := rest })
  | [] =>
    match k.thereafter with
    | some a => some (a, k)
    | none => none

/-- The deterministic input source of R31: the bytes in order, then `EOF` for ever. -/
def Script.ofBytes (bs : List Byte) : Script InAnswer where
  answers := bs.map .byte
  thereafter := some .eof

/-! ### Run state and legality -/

/-- The run state (R27). DESIGN CHOICE (log entry 18): R27's table has no line for `fail = None` and `ip > L`, a state
that no run reaches and R36 gives no meaning; it is called `running` here, and every step of it is refused. -/
def State.runState (s : State) : RunState :=
  match s.fail with
  | some f => .failed f
  | none => if s.ip = s.prog.length then .halted else .running

/-- A step exists exactly when `fail = None` and `ip < L` (R91). -/
def State.isRunning (s : State) : Bool :=
  decide (s.fail = none) && decide (s.ip < s.prog.length)

/-- Fetch (R92): made only in `Running`, so always in range (R53). -/
def State.fetch (s : State) : Option Symbol :=
  if s.isRunning then s.prog[s.ip]? else none

/-- R35 and R22, R23: both pointers in range (and so `N ≥ 1`, R192). -/
def State.pointersLegal (s : State) : Bool :=
  decide (s.ip ≤ s.prog.length) && decide (s.dp < s.cfg.n)

/-- R35 and R24: the tape has the cells `0 .. N-1` and no other, held in canonical form. -/
def State.tapeLegal (s : State) : Bool :=
  s.tape.wf && s.tape.within s.cfg.n

/-- R30: `out` is the formatted `outRaw` (and so as long). -/
def State.tracesLegal (s : State) : Bool :=
  decide (s.out = s.outRaw.map (fmt s.cfg.glyph))

/-- No instruction has run and the failure is the resolver's (R35, R38). DEDUCED (log entry 16): the values of the
pointers and the cells are the spec's own choice, and no statement rests on them. -/
def State.pristine (s : State) : Bool :=
  decide (s.ip = 0) && decide (s.dp = 0) && decide (s.tape = []) && decide (s.out = []) && decide (s.outRaw = [])

/-- Is the failure the one of construction? -/
def Failure.ofConstruction : Failure → Bool
  | .malformedProgram _ => true
  | .inputExhausted _ | .outputFailure _ => false

/-- R25, R26 and R35: a well-formed program has its own table and no construction failure; a malformed one has no
table, its own failure, and has executed nothing. -/
def State.tableLegal (s : State) : Bool :=
  match resolve s.prog with
  | .table t => decide (s.jt = some t) && !(s.fail.any Failure.ofConstruction)
  | .malformed e => decide (s.jt = none) && decide (s.fail = some (.malformedProgram e)) && s.pristine

/-- The invariants of R35, with the canonical form of the tape's list. DEDUCED (log entry 10), safe. -/
def State.legal (s : State) : Bool :=
  s.pointersLegal && s.tapeLegal && s.tracesLegal && s.tableLegal

/-! ### The guard of every instruction rule -/

/-- There is no step: the state is terminal (R91), or it is no state of the machine and is refused (R36). -/
def noStep (s : State) : Result :=
  if s.legal then
    match s.fail with
    | some f => .fault (.failed f)
    | none => .fault .halted
  else .refused .unreachableState

/-- An instruction rule runs only in a legal state (R36) whose run state is `Running` (R91). -/
def whenRunning (s : State) (effect : Result) : Result :=
  if s.isRunning && s.legal then effect else noStep s

end Sys2Proof.Machine
end

