-- ==== Sys2Proof/Machine/Operands.lean ====
section
/-! DEFINITION. The implicit operands (`30_encoding.md` R73, R74). There is one addressing mode, indirect through `dp`
(`20_memory.md` R60), and one indirect through `ip`, the Jump Table's. -/

namespace Sys2Proof.Machine

/-- The operand `tape[dp]`. -/
def State.cell (s : State) : Byte :=
  s.memRead s.dp

/-- The destination `tape[dp]`. -/
def State.setCell (s : State) (v : Byte) : State :=
  s.memWrite s.dp v

/-- The operand `jt[ip]`. -/
def State.jumpEntry (s : State) : Option Nat :=
  s.jt.bind fun t => t.entry s.ip

/-- `ip <- jt[ip] + 1`, the taken jump of R128 and R129. -/
def jump (s : State) : Result :=
  match s.jumpEntry with
  | some t => .next (s.setIp (t + 1))
  | none => .refused .noJumpEntry

end Sys2Proof.Machine
end

