-- ==== Sys2Proof/Machine/CellArith.lean ====
section
/-! DEFINITION. The 8-bit cell adder/subtractor and the cell arithmetic instructions (`42_cell_arith.md`). -/

namespace Sys2Proof.Machine

/-- `inc8(v)` of R110: an 8-bit addition, the carry discarded. -/
def inc8 (v : Byte) : Byte :=
  v + 1

/-- `dec8(v)` of R110, in the form that is never negative. -/
def dec8 (v : Byte) : Byte :=
  v + 255

/-- INC (R111). -/
def execInc (s : State) : Result :=
  whenRunning s (.next (s.setCell (inc8 s.cell)).advance)

/-- DEC (R112). -/
def execDec (s : State) : Result :=
  whenRunning s (.next (s.setCell (dec8 s.cell)).advance)

end Sys2Proof.Machine
end

