-- ==== Sys2Proof/Machine/Ignore.lean ====
section
/-! DEFINITION. The ignore class (`45_ignore.md` R150). -/

namespace Sys2Proof.Machine

/-- NOP (R150), the same for each of the 248 codes. -/
def execNop (s : State) : Result :=
  whenRunning s (.next s.advance)

end Sys2Proof.Machine
end

