-- ==== Sys2Proof/Machine/Flags.lean ====
section
/-! DEFINITION. The machine has no flags and no condition codes (`10_state.md` R20). The one condition an instruction
computes is the zero test of `[` and `]`; its result is used at once and held nowhere. -/

namespace Sys2Proof.Machine

/-- The zero test of R128 and R129 on a cell value. -/
def isZero (v : Byte) : Bool :=
  decide (v = 0)

end Sys2Proof.Machine
end

