-- ==== Sys2Proof/Machine/Loop.lean ====
section
/-! DEFINITION. The loop instructions (`43_loop.md` R128, R129). The Jump Table is read only on the jumping path. -/

namespace Sys2Proof.Machine

/-- OPEN (R128). -/
def execLoopOpen (s : State) : Result :=
  whenRunning s (if isZero s.cell then jump s else .next s.advance)

/-- CLOSE (R129). On the empty loop and a non-zero cell the target is `ip` itself (R132, log entry 15, DEDUCED: R95's last
sentence says otherwise of every instruction). -/
def execLoopClose (s : State) : Result :=
  whenRunning s (if isZero s.cell then .next s.advance else jump s)

end Sys2Proof.Machine
end

