-- ==== Sys2Proof/Machine/Pointer.lean ====
section
/-! DEFINITION. The tape pointer modular arithmetic unit and the pointer instructions (`41_pointer.md`). -/

namespace Sys2Proof.Machine

/-- `move(d, +1)` of R100, on a tape of `n` cells. -/
def moveRight (n d : Nat) : Nat :=
  (d + 1) % n

/-- `move(d, -1)` of R100, in the form that is never negative. -/
def moveLeft (n d : Nat) : Nat :=
  (d + n - 1) % n

/-- RIGHT (R101). -/
def execRight (s : State) : Result :=
  whenRunning s (.next (s.setDp (moveRight s.cfg.n s.dp)).advance)

/-- LEFT (R102). -/
def execLeft (s : State) : Result :=
  whenRunning s (.next (s.setDp (moveLeft s.cfg.n s.dp)).advance)

end Sys2Proof.Machine
end

