-- ==== Sys2Proof/Machine/StreamIO.lean ====
section
/-! DEFINITION. The I/O instructions (`44_io.md` R140, R141). -/

namespace Sys2Proof.Machine

/-- OUT (R140): one formatted unit to the sink; a rejected write fails the run and has no other effect (R163), on the
sink's script either (DEDUCED, log entry 12, safe). While the sink does not answer there is no step (R33, log entry 8). -/
def execOutput (s : State) : Result :=
  whenRunning s
    (match s.sink.request with
    | none => .fault .awaitingOutput
    | some (.reject, _) => .next (s.raise (.outputFailure s.ip))
    | some (.accept, rest) => .next ((s.setSink rest).emit (fmt s.cfg.glyph s.cell) s.cell).advance)

/-- IN (R141): one raw byte into the cell (R142); at end of input the policy decides (R162).
While the source does not answer there is no step (R33, log entry 8). -/
def execInput (s : State) : Result :=
  whenRunning s
    (match s.inp.request with
    | none => .fault .awaitingInput
    | some (.byte b, rest) => .next ((s.setInp rest).setCell b).advance
    | some (.eof, rest) =>
      match s.cfg.eofPolicy with
      | .leaveUnchanged => .next (s.setInp rest).advance
      | .fail => .next (s.raise (.inputExhausted s.ip)))

end Sys2Proof.Machine
end

