-- ==== Sys2Proof/Machine/Dispatch.lean ====
section
/-! DEFINITION. The dispatch of `40_dispatch.md` R93: one arm per class, no default that raises. -/

namespace Sys2Proof.Machine

def exec (i : Instr) (s : State) : Host.Outcome State Fault Refusal :=
  match i with
  | .right => Sys2Proof.Machine.execRight s
  | .left => Sys2Proof.Machine.execLeft s
  | .inc => Sys2Proof.Machine.execInc s
  | .dec => Sys2Proof.Machine.execDec s
  | .loopOpen => Sys2Proof.Machine.execLoopOpen s
  | .loopClose => Sys2Proof.Machine.execLoopClose s
  | .output => Sys2Proof.Machine.execOutput s
  | .input => Sys2Proof.Machine.execInput s
  | .nop _ => Sys2Proof.Machine.execNop s

end Sys2Proof.Machine
end

