-- ==== Sys2Proof/Machine/Loader.lean ====
section
/-! DEFINITION. The external collaborator of `00_scope.md` R4 (a): what stands in the Program Store when a program
text is loaded, and the load of one instruction that `State.withFetchWord` stands for. -/

namespace Sys2Proof.Machine

/-- The Program Store entries of a program text (`30_encoding.md` R77, R78): its byte sequence, first character first;
a character outside ASCII takes several entries, each at least 0x80 (R76). PRESUMED: the multi-byte encoding is UTF-8
(log entry 5). -/
def assemble (text : List Char) : List Symbol :=
  text.flatMap fun c => (String.utf8EncodeChar c).map UInt8.toBitVec

/-- The shortest well-formed program with symbol `c` at index `ip`, and the index where `c` stands: NOPs (code 0x00,
R75) before it, and a bracket's partner beside it. A `]` cannot stand at index 0 of a well-formed program; for `ip = 0`
it is put at index 1. DESIGN CHOICE (log entry 4). -/
def programAround (ip : Nat) (c : Symbol) : List Symbol × Nat :=
  match decode c with
  | .loopOpen => (List.replicate ip 0 ++ [c, codeClose], ip)
  | .loopClose => (List.replicate (ip - 1) 0 ++ [codeOpen, c], ip - 1 + 1)
  | .right | .left | .inc | .dec | .output | .input | .nop _ => (List.replicate ip 0 ++ [c], ip)

/-- The state with `programAround` loaded and its table resolved (R190), about to execute the symbol `c`; everything
else is as before. -/
def State.loadSymbol (s : State) (c : Symbol) : State :=
  { s with
    prog := (programAround s.ip c).1
    ip := (programAround s.ip c).2
    jt := (resolve (programAround s.ip c).1).toTable?
    fail := (resolve (programAround s.ip c).1).failure? }

end Sys2Proof.Machine
end

