-- ==== Sys2Proof/Machine/Step.lean ====
section
/-! DEFINITION. The step function of `40_dispatch.md` R90 to R93: the halt test, fetch, decode, dispatch. -/

namespace Sys2Proof.Machine

/-- One step executes exactly one instruction (R90); where there is no step, it says why (R91). -/
def step (s : State) : Host.Outcome State Fault Refusal :=
  match s.fetch with
  | some c => exec (decode c) s
  | none => noStep s

/-- The state that fetches and runs, in its very next step, the instruction the host gives as a number (log entry 4). -/
def State.withFetchWord (s : State) (nbits w : Nat) : State :=
  s.loadSymbol (symbolOfWord nbits w)

end Sys2Proof.Machine
end

