-- ==== Sys2Proof/Machine/Status.lean ====
section
/-! DEFINITION. What the host reads (`10_state.md` R32, R34): the STATUS interface, its numeric codes (R26, R27, R160)
and the register widths of a bit-level implementation (R5). No result of the machine depends on either (R5, N4, N6). -/

namespace Sys2Proof.Machine

/-- The 2-bit code of the run state (R27). -/
def RunState.code : RunState → BitVec 2
  | .running => 0
  | .halted => 1
  | .failed _ => 2

/-- The 2-bit code of the failure register (R26, R160). -/
def failCode : Option Failure → BitVec 2
  | none => 0
  | some (.malformedProgram _) => 1
  | some (.inputExhausted _) => 2
  | some (.outputFailure _) => 3

/-- The smallest `w ≥ 1` with `2 ^ w > m`. -/
def widthFor (m : Nat) : Nat :=
  if m = 0 then 1 else m.log2 + 1

/-- `W_ip` (R5): the smallest `w ≥ 1` with `2 ^ w > L`. -/
def State.ipWidth (s : State) : Nat :=
  widthFor s.prog.length

/-- `W_dp` (R5): the smallest `w ≥ 1` with `2 ^ w ≥ N`. -/
def State.dpWidth (s : State) : Nat :=
  widthFor (s.cfg.n - 1)

end Sys2Proof.Machine
end

