-- ==== Sys2Proof/Machine/Reset.lean ====
section
/-! DEFINITION. Reset, which is construction (`70_reset_and_hazards.md` R190 to R192): it takes no earlier state, so
nothing survives it. -/

namespace Sys2Proof.Machine

/-- The state R190 leaves, for a tape of at least one cell: the values of R37, or of R38 for a malformed program. -/
def constructed (cfg : Config) (prog : List Symbol) (inp : Script InAnswer) (sink : Script OutAnswer) : State where
  cfg := cfg
  prog := prog
  jt := (resolve prog).toTable?
  ip := 0
  dp := 0
  tape := []
  fail := (resolve prog).failure?
  out := []
  outRaw := []
  inp := inp
  sink := sink

/-- The RESET transaction of R32: `reset(N, prog, eof_policy, GLYPH, input)` of R190, with the sink's coming answers.
`N = 0` is refused (R192). -/
def construct (cfg : Config) (prog : List Symbol) (inp : Script InAnswer) (sink : Script OutAnswer) : Result :=
  if cfg.n = 0 then .refused .zeroLengthTape else .next (constructed cfg prog inp sink)

end Sys2Proof.Machine
end

