-- ==== Sys2Proof/Safety.lean ====
section
/-! DEFINITION. The terms claims are made in: the parts of an outcome, what a step leaves unchanged, runs, and what
counts as a successful run. -/

namespace Sys2Proof

open Machine

/-- The next state, if the outcome is one. -/
def nextOf : Result → Option State
  | .next s => some s
  | .fault _ | .refused _ => none

/-- The fault, if the outcome is one. -/
def faultOf : Result → Option Fault
  | .fault r => some r
  | .next _ | .refused _ => none

/-- The refusal, if the outcome is one. -/
def refusalOf : Result → Option Refusal
  | .refused r => some r
  | .next _ | .fault _ => none

/-- The parameters, the program and its table are as before: no step changes them (R5, R21, R25). -/
def SameConstruction (s t : State) : Prop :=
  t.cfg = s.cfg ∧ t.prog = s.prog ∧ t.jt = s.jt

/-- Both streams and both traces are as before. -/
def SameStreams (s t : State) : Prop :=
  t.out = s.out ∧ t.outRaw = s.outRaw ∧ t.inp = s.inp ∧ t.sink = s.sink

/-- Every cell, those outside the tape included, reads as before. -/
def SameCells (s t : State) : Prop :=
  ∀ a, t.memRead a = s.memRead a

/-- Every cell but the one at `p` reads as before. -/
def SameCellsBut (p : Nat) (s t : State) : Prop :=
  ∀ a, a ≠ p → t.memRead a = s.memRead a

/-- A state a step can start from: legal (R35) and `Running` (R91). -/
abbrev Ready (s : State) : Prop :=
  s.legal = true ∧ s.isRunning = true

/-- The class of the symbol at a position of a program (R72), if the position holds one. -/
def classAt (prog : List Symbol) (i : Nat) : Option Instr :=
  prog[i]?.map decode

/-- The number of opens among the symbols of a program (R121). -/
def opens (prog : List Symbol) : Nat :=
  prog.countP fun c => decide (decode c = .loopOpen)

/-- The number of closes among the symbols of a program (R121). -/
def closes (prog : List Symbol) : Nat :=
  prog.countP fun c => decide (decode c = .loopClose)

/-- `depth(k)` of R124: opens minus closes in positions `0 .. k-1`. -/
def depth (prog : List Symbol) (k : Nat) : Int :=
  (opens (prog.take k) : Int) - closes (prog.take k)

/-- Is the symbol a NOP (R150)? -/
def isIgnored (c : Symbol) : Bool :=
  !alphabet.contains c

/-- The state of a run that differs in the placeholder alone (R145): another `GLYPH`, and the units the same cells
format to under it. -/
def withGlyph (g : Byte) (s : State) : State :=
  { s with cfg := { s.cfg with glyph := g }, out := s.outRaw.map (fmt g) }

/-- An outcome with its next state, if it is one, changed. -/
def mapNext (f : State → State) : Result → Result
  | .next s => .next (f s)
  | .fault r => .fault r
  | .refused r => .refused r

/-- `s` leads to `t` in some number of steps (R96). -/
def Leads (s t : State) : Prop :=
  ∃ k, core.run k s = .next t

/-- A state of some run: one that some construction leads to (R190, R96). -/
def Reachable (t : State) : Prop :=
  ∃ cfg prog inp sink s, construct cfg prog inp sink = .next s ∧ Leads s t

/-- Is the coming step a `.` that ends with `Accept` (R140)? -/
def acceptsWrite (s : State) : Bool :=
  decide (classAt s.prog s.ip = some .output) && decide (s.sink.request.map Prod.fst = some .accept)

/-- How many of the first `k` steps from `s` are a `.` that ended with `Accept` (R35). -/
def acceptedWrites : Nat → State → Nat
  | 0, _ => 0
  | k + 1, s =>
    match step s with
    | .next t => (if acceptsWrite s then 1 else 0) + acceptedWrites k t
    | .fault _ | .refused _ => 0

/-- A successful end of a run: `Halted`, which takes `fail = None` (R27, R168). -/
abbrev Completed (s : State) : Prop :=
  s.legal = true ∧ s.runState = .halted

end Sys2Proof
end

