-- ==== Sys2Proof/Certificates/Slice0/Obligations.lean ====
section
/-! DEFINITION. The statements for the provers, each with the rules of spec/ it formalises. -/

open Sys2Proof Sys2Proof.Machine

/-! ### Encoding and decode (`30_encoding.md`) -/

/-- R72, with the codes of R71: the eight codes and the ignore class. -/
def Obligations.DecodeFollowsTheSymbolTable : Prop :=
  decode 0x3E = .right ∧ decode 0x3C = .left ∧ decode 0x2B = .inc ∧ decode 0x2D = .dec ∧
  decode 0x5B = .loopOpen ∧ decode 0x5D = .loopClose ∧ decode 0x2E = .output ∧ decode 0x2C = .input ∧
  ∀ c : Symbol, c ∉ ([0x3E, 0x3C, 0x2B, 0x2D, 0x5B, 0x5D, 0x2E, 0x2C] : List Symbol) → decode c = .nop c

/-- R71 to R73: a program of well-formed instructions is decoded, symbol by symbol, to the instructions it encodes,
and the decoder takes exactly one symbol for each (R70). -/
def Obligations.DecodeInvertsEncode : Prop :=
  ∀ is : List Instr, (∀ i ∈ is, i.wellFormed = true) →
    (encodeProgram is).map decode = is ∧ (encodeProgram is).length = is.length ∧
    ∀ i rest, is = i :: rest → decodeSymbols (encodeProgram is) = .ok (i, encodeProgram rest)

/-- R72, R75: every program is the encoding of what it decodes to, and all of that is well-formed: no code is refused
and no bit of a code is lost. -/
def Obligations.EncodeInvertsDecode : Prop :=
  ∀ prog : List Symbol, (∀ i ∈ prog.map decode, i.wellFormed = true) ∧ encodeProgram (prog.map decode) = prog

/-- R78: a program text in ASCII (R71) is stored character by character as its codes; and the worked example
`[->+<]`: its stored codes, its classes and its Jump Table. -/
def Obligations.ProgramTextIsStoredAsItsCodes : Prop :=
  (∀ text : List Char, (∀ c ∈ text, c.toNat < 128) → assemble text = text.map fun c => BitVec.ofNat 8 c.toNat) ∧
  assemble ['[', '-', '>', '+', '<', ']'] = [0x5B, 0x2D, 0x3E, 0x2B, 0x3C, 0x5D] ∧
  ([0x5B, 0x2D, 0x3E, 0x2B, 0x3C, 0x5D] : List Symbol).map decode =
    [.loopOpen, .dec, .right, .inc, .left, .loopClose] ∧
  ∃ table, resolve [0x5B, 0x2D, 0x3E, 0x2B, 0x3C, 0x5D] = .table table ∧
    table.entry 0 = some 5 ∧ table.entry 5 = some 0

/-! ### Reset (`70_reset_and_hazards.md`, `10_state.md` R37, R38) -/

/-- The reset state is legal, is `Halted` (its program is empty), and is what construction leaves with the default
configuration, no program, an empty input and a sink that accepts. The empty program and both streams are the model's
choice (log entries 1 to 3). -/
def Obligations.ResetStateIsLegal : Prop :=
  State.reset.legal = true ∧ State.reset.runState = .halted ∧
  construct Config.default [] (.ofBytes []) { answers := [], thereafter := some .accept } = .next State.reset

/-- R37. -/
def Obligations.ConstructionOfAWellFormedProgram : Prop :=
  ∀ cfg prog inp sink, 1 ≤ cfg.n → programWellFormed prog = true →
    ∃ t table, construct cfg prog inp sink = .next t ∧ resolve prog = .table table ∧
      t.cfg = cfg ∧ t.prog = prog ∧ t.ip = 0 ∧ t.dp = 0 ∧ (∀ a, a < cfg.n → t.memRead a = 0) ∧
      t.fail = none ∧ t.jt = some table ∧ t.out = [] ∧ t.outRaw = [] ∧ t.inp = inp ∧ t.sink = sink ∧
      (0 < prog.length → t.runState = .running) ∧ (prog.length = 0 → t.runState = .halted)

/-- R38, R127: after construction of a malformed program the failure is the resolver's, nothing was emitted or
consumed, there is no table, and no instruction executes. (R38 asks that no claim rest on the pointers and the cells
of this state, so this says nothing of them.) That "no instruction executes" is said by the fault `failed`, of the step
and of every instruction: the model's form of it, DESIGN CHOICE (log entry 9). -/
def Obligations.ConstructionOfAMalformedProgram : Prop :=
  ∀ cfg prog inp sink e, 1 ≤ cfg.n → resolve prog = .malformed e →
    ∃ t, construct cfg prog inp sink = .next t ∧
      t.fail = some (.malformedProgram e) ∧ t.out = [] ∧ t.outRaw = [] ∧ t.inp = inp ∧ t.jt = none ∧
      t.runState = .failed (.malformedProgram e) ∧
      step t = .fault (.failed (.malformedProgram e)) ∧
      ∀ i, exec i t = .fault (.failed (.malformedProgram e))

/-- R192: construction with `N = 0` is refused, and only that is. -/
def Obligations.ConstructionRefusesAnEmptyTape : Prop :=
  ∀ cfg prog inp sink,
    (cfg.n = 0 → construct cfg prog inp sink = .refused .zeroLengthTape) ∧
    (1 ≤ cfg.n → ∃ t, construct cfg prog inp sink = .next t)

/-- R35, where a run begins: whatever construction answers is legal. -/
def Obligations.ConstructionLeavesALegalState : Prop :=
  ∀ cfg prog inp sink t, construct cfg prog inp sink = .next t → t.legal = true

/-! ### The step (`40_dispatch.md`) -/

/-- R92, R93: in a ready state there is a symbol at `ip`, and a step is the rule of its class and nothing else. -/
def Obligations.StepRunsTheDecodedInstruction : Prop :=
  ∀ s : State, Ready s → ∃ c, s.prog[s.ip]? = some c ∧ step s = exec (decode c) s

/-- R91, R168: in `Halted` and in `Failed` there is no step and no instruction executes; a step exists only in
`Running`. The faults `halted` and `failed` are the model's form of "there is no step", DESIGN CHOICE (log entry 9). -/
def Obligations.TerminalStatesHaveNoStep : Prop :=
  ∀ s : State, s.legal = true →
    (s.runState = .halted → step s = .fault .halted ∧ ∀ i, exec i s = .fault .halted) ∧
    (∀ f, s.runState = .failed f → step s = .fault (.failed f) ∧ ∀ i, exec i s = .fault (.failed f)) ∧
    ∀ t, step s = .next t → s.runState = .running

/-- R36: a state that breaks an invariant of R35 (or the canonical form of the tape's list) is given no result, by the
step or by any instruction. -/
def Obligations.IllegalStatesAreRefused : Prop :=
  ∀ s : State, s.legal = false →
    step s = .refused .unreachableState ∧ ∀ i, exec i s = .refused .unreachableState

/-- R33: every step but that of `.` and `,` is enabled; those two are enabled exactly when the environment answers,
and otherwise the machine is stuck, neither halted nor failed. That the stuck machine answers the fault
`awaitingOutput` or `awaitingInput` is the model's form of it, DESIGN CHOICE (log entry 8). The next state of an
answered `.` or `,` may be a failure's (R140, R141): when those two complete with their own effect is said by
`OutEmitsTheFormattedCell` and `InStoresTheByteOrFollowsThePolicy`. -/
def Obligations.OnlyTheStreamsBlock : Prop :=
  ∀ (s : State) (c : Symbol), Ready s → s.prog[s.ip]? = some c →
    (decode c ≠ .output → decode c ≠ .input → ∃ t, step s = .next t) ∧
    (decode c = .output → s.sink.request ≠ none → ∃ t, step s = .next t) ∧
    (decode c = .output → s.sink.request = none → step s = .fault .awaitingOutput) ∧
    (decode c = .input → s.inp.request ≠ none → ∃ t, step s = .next t) ∧
    (decode c = .input → s.inp.request = none → step s = .fault .awaitingInput)

/-- R94: what each class may write. -/
def Obligations.StepWritesOnlyWhatItsClassMay : Prop :=
  ∀ (s t : State) (c : Symbol), step s = .next t → s.prog[s.ip]? = some c →
    (decode c ≠ .right → decode c ≠ .left → t.dp = s.dp) ∧
    (decode c ≠ .inc → decode c ≠ .dec → decode c ≠ .input → SameCells s t) ∧
    SameCellsBut s.dp s t ∧
    (decode c ≠ .output → t.out = s.out ∧ t.outRaw = s.outRaw ∧ t.sink = s.sink) ∧
    (decode c ≠ .input → t.inp = s.inp) ∧
    (decode c ≠ .output → decode c ≠ .input → t.fail = none)

/-- R21, R25, R5: no step changes the program, its table or the parameters. -/
def Obligations.StepKeepsTheConstruction : Prop :=
  ∀ s t : State, step s = .next t → SameConstruction s t

/-- R95: where `ip` goes in a step that does not fail, and its range; a step that fails leaves it. -/
def Obligations.StepAdvancesOrJumps : Prop :=
  ∀ (s t : State) (c : Symbol), step s = .next t → s.prog[s.ip]? = some c →
    (t.fail = none →
      1 ≤ t.ip ∧ t.ip ≤ s.prog.length ∧
      (t.ip = s.ip + 1 ∨
        ((decode c = .loopOpen ∨ decode c = .loopClose) ∧ ∃ j, s.jumpEntry = some j ∧ t.ip = j + 1))) ∧
    (t.fail ≠ none → t.ip = s.ip)

/-! ### Pointer instructions (`41_pointer.md`) -/

/-- R100: both directions of `move`, their compare-and-select forms, their range, and that they undo each other. -/
def Obligations.PointerUnitIsARing : Prop :=
  ∀ n d, d < n →
    moveRight n d = (d + 1) % n ∧ moveRight n d = (if d = n - 1 then 0 else d + 1) ∧
    moveLeft n d = (d + n - 1) % n ∧ moveLeft n d = (if d = 0 then n - 1 else d - 1) ∧
    moveRight n d < n ∧ moveLeft n d < n ∧
    moveLeft n (moveRight n d) = d ∧ moveRight n (moveLeft n d) = d

/-- R103, for moves that stand next to each other in the program (`true` is `>`, `false` is `<`): the run over them
ends with the pointer moved by the count of each, and with nothing else changed but `ip` (R104). -/
def Obligations.PointerMovesAddUp : Prop :=
  ∀ (s : State) (moves : List Bool), s.legal = true → s.fail = none →
    (s.prog.drop s.ip).take moves.length = (moves.map fun up => if up then 0x3E else 0x3C) →
    core.run moves.length s = .next ({ s with
      dp := (s.dp + moves.count true + moves.count false * (s.cfg.n - 1)) % s.cfg.n,
      ip := s.ip + moves.length } : State)

/-- R101: RIGHT completes; `dp` and `ip` are all it writes. -/
def Obligations.RightMovesUpTheRing : Prop :=
  decode 0x3E = .right ∧
  ∀ s : State, Ready s →
    exec .right s = .next { s with dp := (s.dp + 1) % s.cfg.n, ip := s.ip + 1 } ∧
    (s.dp = s.cfg.n - 1 → (s.dp + 1) % s.cfg.n = 0) ∧ (s.cfg.n = 1 → (s.dp + 1) % s.cfg.n = 0)

/-- R102: LEFT completes; `dp` and `ip` are all it writes. -/
def Obligations.LeftMovesDownTheRing : Prop :=
  decode 0x3C = .left ∧
  ∀ s : State, Ready s →
    exec .left s = .next { s with dp := (s.dp + s.cfg.n - 1) % s.cfg.n, ip := s.ip + 1 } ∧
    (s.dp = 0 → (s.dp + s.cfg.n - 1) % s.cfg.n = s.cfg.n - 1) ∧
    (s.cfg.n = 1 → (s.dp + s.cfg.n - 1) % s.cfg.n = 0)

/-! ### Cell arithmetic (`42_cell_arith.md`) and the tape (`20_memory.md`) -/

/-- R58, R59: reading a cell, and what a write of one cell changes. -/
def Obligations.CellWriteChangesOneCell : Prop :=
  ∀ (s : State) (a : Nat) (v : Byte), s.legal = true → a < s.cfg.n →
    (s.memWrite a v).memRead a = v ∧ SameCellsBut a s (s.memWrite a v) ∧
    (s.memWrite a v).ip = s.ip ∧ (s.memWrite a v).dp = s.dp ∧ (s.memWrite a v).fail = s.fail ∧
    SameConstruction s (s.memWrite a v) ∧ SameStreams s (s.memWrite a v)

/-- R110: both directions of the adder, their compare-and-select forms, and that they undo each other. -/
def Obligations.CellUnitWrapsAt256 : Prop :=
  ∀ v : Byte,
    (inc8 v).toNat = (v.toNat + 1) % 256 ∧ inc8 v = (if v = 255 then 0 else v + 1) ∧
    (dec8 v).toNat = (v.toNat + 255) % 256 ∧ dec8 v = (if v = 0 then 255 else v - 1) ∧
    dec8 (inc8 v) = v ∧ inc8 (dec8 v) = v

/-- R114, for steps that stand next to each other in the program (`true` is `+`, `false` is `-`): the run over them
ends with the addressed cell changed by the count of each, and with nothing else changed but `ip`. -/
def Obligations.CellStepsAddUp : Prop :=
  ∀ (s : State) (steps : List Bool), s.legal = true → s.fail = none →
    (s.prog.drop s.ip).take steps.length = (steps.map fun up => if up then 0x2B else 0x2D) →
    ∃ t, core.run steps.length s = .next t ∧
      (t.memRead s.dp).toNat = ((s.memRead s.dp).toNat + steps.count true + 255 * steps.count false) % 256 ∧
      SameCellsBut s.dp s t ∧ t.ip = s.ip + steps.length ∧ t.dp = s.dp ∧ t.fail = none ∧
      SameConstruction s t ∧ SameStreams s t

/-- R111: INC completes; the addressed cell and `ip` are all it writes. -/
def Obligations.IncAddsOneToTheCell : Prop :=
  decode 0x2B = .inc ∧
  ∀ s : State, Ready s →
    ∃ t, exec .inc s = .next t ∧
      (t.memRead s.dp).toNat = ((s.memRead s.dp).toNat + 1) % 256 ∧ SameCellsBut s.dp s t ∧
      t.ip = s.ip + 1 ∧ t.dp = s.dp ∧ t.fail = none ∧ SameConstruction s t ∧ SameStreams s t

/-- R112: DEC completes; the addressed cell and `ip` are all it writes. -/
def Obligations.DecSubtractsOneFromTheCell : Prop :=
  decode 0x2D = .dec ∧
  ∀ s : State, Ready s →
    ∃ t, exec .dec s = .next t ∧
      (t.memRead s.dp).toNat = ((s.memRead s.dp).toNat + 255) % 256 ∧ SameCellsBut s.dp s t ∧
      t.ip = s.ip + 1 ∧ t.dp = s.dp ∧ t.fail = none ∧ SameConstruction s t ∧ SameStreams s t

/-! ### The Bracket Resolver (`43_loop.md`) -/

/-- R122 (a) to (c): where the table has entries, and that it pairs each `[` with a later `]` and back. -/
def Obligations.JumpTablePairsTheBrackets : Prop :=
  ∀ prog table, resolve prog = .table table →
    (∀ i, (table.entry i).isSome = true ↔
      classAt prog i = some .loopOpen ∨ classAt prog i = some .loopClose) ∧
    (∀ i, classAt prog i = some .loopOpen →
      ∃ j, i < j ∧ classAt prog j = some .loopClose ∧ table.entry i = some j ∧ table.entry j = some i) ∧
    (∀ j, classAt prog j = some .loopClose →
      ∃ i, i < j ∧ classAt prog i = some .loopOpen ∧ table.entry j = some i ∧ table.entry i = some j)

/-- R122 (d) to (f): pairs never cross, the text inside a pair is well-formed, opens and closes are as many. -/
def Obligations.JumpTablePairsNest : Prop :=
  ∀ prog table, resolve prog = .table table →
    (∀ i i' j j', classAt prog i = some .loopOpen → classAt prog i' = some .loopOpen →
      table.entry i = some j → table.entry i' = some j' → i < i' → j < i' ∨ j' < j) ∧
    (∀ i j, classAt prog i = some .loopOpen → table.entry i = some j →
      programWellFormed ((prog.drop (i + 1)).take (j - (i + 1))) = true) ∧
    opens prog = closes prog

/-- R121: the entry of an open is the least later position, that of a close the greatest earlier one, between which
(inclusive) there are as many opens as closes. -/
def Obligations.JumpTableEntriesAreTheNearestBalanced : Prop :=
  ∀ prog table i j, resolve prog = .table table → table.entry i = some j →
    (classAt prog i = some .loopOpen →
      i < j ∧ depth prog (j + 1) = depth prog i ∧
      ∀ k, i < k → k < j → depth prog (k + 1) ≠ depth prog i) ∧
    (classAt prog i = some .loopClose →
      j < i ∧ depth prog (i + 1) = depth prog j ∧
      ∀ k, j < k → k < i → depth prog (i + 1) ≠ depth prog k)

/-- R124: a program is well-formed exactly when its depth is never negative and ends at zero. -/
def Obligations.WellFormedMeansBalancedDepth : Prop :=
  ∀ prog, programWellFormed prog = true ↔
    (∀ k, k ≤ prog.length → 0 ≤ depth prog k) ∧ depth prog prog.length = 0

/-- R125, R161: which diagnostic a malformed program gets. -/
def Obligations.ResolverReportsTheFirstError : Prop :=
  ∀ prog p,
    (resolve prog = .malformed (.unmatchedClose p) ↔
      classAt prog p = some .loopClose ∧ depth prog p = 0 ∧ ∀ k, k ≤ p → 0 ≤ depth prog k) ∧
    (resolve prog = .malformed (.unmatchedOpen p) ↔
      (∀ k, k ≤ prog.length → 0 ≤ depth prog k) ∧ classAt prog p = some .loopOpen ∧
      depth prog p + 1 = depth prog prog.length ∧
      ∀ k, p < k → k ≤ prog.length → depth prog p < depth prog k)

/-- R126: the scan engine finds what the table holds. -/
def Obligations.ScanEngineAgreesWithTheTable : Prop :=
  ∀ prog table, resolve prog = .table table →
    (∀ i, classAt prog i = some .loopOpen → scanForward prog i = table.entry i) ∧
    (∀ j, classAt prog j = some .loopClose → scanBackward prog j = table.entry j)

/-- R151: taking the NOPs out of a program changes neither its well-formedness nor which bracket matches which. -/
def Obligations.NopsAreInvisibleToMatching : Prop :=
  ∀ prog,
    programWellFormed (prog.filter fun c => !isIgnored c) = programWellFormed prog ∧
    ∀ table, resolve prog = .table table →
      ∃ table', resolve (prog.filter fun c => !isIgnored c) = .table table' ∧
        ∀ i j, table.entry i = some j →
          table'.entry ((prog.take i).countP fun c => !isIgnored c) =
            some ((prog.take j).countP fun c => !isIgnored c)

/-! ### Loop instructions (`43_loop.md`) -/

/-- R128: OPEN completes; `ip` is all it writes. -/
def Obligations.OpenSkipsOrEntersTheLoop : Prop :=
  decode 0x5B = .loopOpen ∧
  ∀ s : State, Ready s → classAt s.prog s.ip = some .loopOpen →
    ∃ table j, s.jt = some table ∧ table.entry s.ip = some j ∧
      classAt s.prog j = some .loopClose ∧ s.ip + 2 ≤ j + 1 ∧ j + 1 ≤ s.prog.length ∧
      exec .loopOpen s = .next { s with ip := if s.memRead s.dp = 0 then j + 1 else s.ip + 1 }

/-- R129: CLOSE completes; `ip` is all it writes. -/
def Obligations.CloseRepeatsOrLeavesTheLoop : Prop :=
  decode 0x5D = .loopClose ∧
  ∀ s : State, Ready s → classAt s.prog s.ip = some .loopClose →
    ∃ table j, s.jt = some table ∧ table.entry s.ip = some j ∧
      classAt s.prog j = some .loopOpen ∧ 1 ≤ j + 1 ∧ j + 1 ≤ s.ip ∧
      exec .loopClose s = .next { s with ip := if s.memRead s.dp ≠ 0 then j + 1 else s.ip + 1 }

/-- R25: off a bracket the table has no entry, and it is never read there. The spec gives OPEN and CLOSE no effect at
such a position, and no step applies them there (R93). That the meaning, applied there by hand, refuses its jump as
`noJumpEntry`, and completes on the path that does not jump, is the model's choice, DESIGN CHOICE (log entry 11). -/
def Obligations.JumpWithoutAnEntryIsRefused : Prop :=
  ∀ s : State, Ready s → classAt s.prog s.ip ≠ some .loopOpen → classAt s.prog s.ip ≠ some .loopClose →
    exec .loopOpen s =
      (if s.memRead s.dp = 0 then .refused .noJumpEntry else .next { s with ip := s.ip + 1 }) ∧
    exec .loopClose s =
      (if s.memRead s.dp = 0 then .next { s with ip := s.ip + 1 } else .refused .noJumpEntry)

/-- R130: jumping back from `]` gives the same next state as going to its `[` and executing that. -/
def Obligations.LoopBackEqualsReentry : Prop :=
  ∀ (s : State) (j : Nat), Ready s → classAt s.prog s.ip = some .loopClose → s.memRead s.dp ≠ 0 → s.jumpEntry = some j →
    step s = step { s with ip := j } ∧ step s = .next { s with ip := j + 1 }

/-- R132: the empty loop at `i`, `i + 1`: on a zero cell it is left in one step, on a non-zero cell every run stays in
it, the state otherwise unchanged. -/
def Obligations.EmptyLoopOnANonZeroCellNeverEnds : Prop :=
  ∀ s : State, Ready s → classAt s.prog s.ip = some .loopOpen → classAt s.prog (s.ip + 1) = some .loopClose →
    (s.memRead s.dp = 0 → step s = .next { s with ip := s.ip + 2 }) ∧
    (s.memRead s.dp ≠ 0 → ∀ k, core.run (k + 1) s = .next ({ s with ip := s.ip + 1 } : State))

/-! ### I/O (`44_io.md`) -/

/-- R143, R144: the displayable bytes pass, the others become `GLYPH`; 100 of the 256 pass. R145: formatting twice is
formatting once when `GLYPH` is displayable. -/
def Obligations.FormatterPassesDisplayableBytes : Prop :=
  (∀ glyph b : Byte,
    ((9 ≤ b.toNat ∧ b.toNat ≤ 13 ∨ 32 ≤ b.toNat ∧ b.toNat ≤ 126) → fmt glyph b = b) ∧
    ((b.toNat ≤ 8 ∨ 14 ≤ b.toNat ∧ b.toNat ≤ 31 ∨ 127 ≤ b.toNat) → fmt glyph b = glyph) ∧
    (displayable glyph = true → fmt glyph (fmt glyph b) = fmt glyph b)) ∧
  (List.range 256).countP (fun k => displayable (BitVec.ofNat 8 k)) = 100

/-- R31, R149, R33: the deterministic source gives its bytes in order and then `EOF` for ever. The scripts of both
streams, bytes and `EOF` mixed in any order: a listed answer is given first and the rest kept; with none listed, the
answer that stands after them is given to this and every later request; with neither, there is no answer. Scripts are
the model's form of the environment, DESIGN CHOICE (log entry 7). -/
def Obligations.StreamsAnswerInOrder : Prop :=
  (∀ b bs, (Script.ofBytes (b :: bs)).request = some (.byte b, .ofBytes bs)) ∧
  (Script.ofBytes []).request = some (.eof, .ofBytes []) ∧
  ∀ α : Type,
    (∀ (a : α) (as : List α) (th : Option α),
      ({ answers := a :: as, thereafter := th } : Script α).request =
        some (a, { answers := as, thereafter := th })) ∧
    (∀ a : α,
      ({ answers := [], thereafter := some a } : Script α).request =
        some (a, { answers := [], thereafter := some a })) ∧
    ({ answers := [], thereafter := none } : Script α).request = none

/-- R140, R163: OUT completes with one unit when the sink accepts, fails the run, with no other effect, when it
rejects. The model's choices in it: while the sink does not answer, OUT is the fault `awaitingOutput` (R33, log entry
8); an accepted write takes its answer from the sink's script (log entry 7), a rejected one leaves the script as it is
(log entry 12). -/
def Obligations.OutEmitsTheFormattedCell : Prop :=
  decode 0x2E = .output ∧
  ∀ (s : State) k, Ready s →
    (s.sink.request = some (.accept, k) →
      exec .output s = .next { s with
        out := s.out ++ [fmt s.cfg.glyph (s.memRead s.dp)], outRaw := s.outRaw ++ [s.memRead s.dp],
        sink := k, ip := s.ip + 1 }) ∧
    (s.sink.request = some (.reject, k) →
      exec .output s = .next { s with fail := some (.outputFailure s.ip) }) ∧
    (s.sink.request = none → exec .output s = .fault .awaitingOutput)

/-- R141, R142, R162: IN completes with the raw byte in the cell; at end of input it keeps the cell and goes on, or
fails the run with no other effect, as the policy says; The model's
choices in it: while the source does not answer, IN is the fault `awaitingInput` (R33, log entry 8); an `EOF` that is
absorbed is taken from the script, one that fails the run stays in it (log entry 12). -/
def Obligations.InStoresTheByteOrFollowsThePolicy : Prop :=
  decode 0x2C = .input ∧
  ∀ (s : State) k, Ready s →
    (∀ b, s.inp.request = some (.byte b, k) →
      ∃ t, exec .input s = .next t ∧ t.memRead s.dp = b ∧ SameCellsBut s.dp s t ∧
        t.inp = k ∧ t.ip = s.ip + 1 ∧ t.dp = s.dp ∧ t.fail = none ∧ SameConstruction s t ∧
        t.out = s.out ∧ t.outRaw = s.outRaw ∧ t.sink = s.sink) ∧
    (s.inp.request = some (.eof, k) → s.cfg.eofPolicy = .leaveUnchanged →
      exec .input s = .next { s with inp := k, ip := s.ip + 1 }) ∧
    (s.inp.request = some (.eof, k) → s.cfg.eofPolicy = .fail →
      exec .input s = .next { s with fail := some (.inputExhausted s.ip) }) ∧
    (s.inp.request = none → exec .input s = .fault .awaitingInput)

/-- R30, R147: along any run the traces only grow at their end, in step, each unit the formatted form of its cell. -/
def Obligations.TracesGrowInOrder : Prop :=
  ∀ s t : State, Leads s t →
    ∃ vs, t.outRaw = s.outRaw ++ vs ∧ t.out = s.out ++ vs.map (fmt s.cfg.glyph)

/-- R145, R146: the placeholder cannot be observed: a step of a state that differs in `GLYPH`, and so in how its
output is formatted, differs in that alone. -/
def Obligations.PlaceholderIsUnobservable : Prop :=
  ∀ (s : State) (g : Byte), s.legal = true → step (withGlyph g s) = mapNext (withGlyph g) (step s)

/-! ### The ignore class (`45_ignore.md`) -/

/-- R150: each of the 248 other codes decodes to NOP, which completes and writes nothing but `ip`. -/
def Obligations.NopOnlyAdvances : Prop :=
  ∀ c : Symbol, c ∉ alphabet →
    decode c = .nop c ∧ ∀ s : State, Ready s → exec (.nop c) s = .next { s with ip := s.ip + 1 }

/-! ### Failures and status (`60_exceptions.md`, `10_state.md`) -/

/-- R166, R167: a step starts without a failure; one that fails writes the failure register alone, with the reason of
its instruction and the position of that instruction. -/
def Obligations.FailureEntryIsPrecise : Prop :=
  ∀ s t : State, step s = .next t →
    s.fail = none ∧
    ∀ f, t.fail = some f →
      t = { s with fail := some f } ∧
      ((f = .outputFailure s.ip ∧ classAt s.prog s.ip = some .output) ∨
        (f = .inputExhausted s.ip ∧ classAt s.prog s.ip = some .input ∧ s.cfg.eofPolicy = .fail))

/-- R161 to R163: in every reachable state the failure register's diagnostic is the resolver's or points at the
instruction that failed. -/
def Obligations.ReachableFailuresPointAtTheirCause : Prop :=
  ∀ t : State, Reachable t →
    (∀ e, t.fail = some (.malformedProgram e) → resolve t.prog = .malformed e) ∧
    (∀ p, t.fail = some (.inputExhausted p) →
      t.ip = p ∧ classAt t.prog p = some .input ∧ t.cfg.eofPolicy = .fail) ∧
    (∀ p, t.fail = some (.outputFailure p) → t.ip = p ∧ classAt t.prog p = some .output)

/-- R27, R26: the run state as a function of `fail` and `ip`, and the codes of both. -/
def Obligations.RunStateFollowsFailAndIp : Prop :=
  ∀ s : State,
    (∀ f, s.fail = some f → s.runState = .failed f) ∧
    (s.fail = none → s.ip = s.prog.length → s.runState = .halted) ∧
    (s.fail = none → s.ip < s.prog.length → s.runState = .running) ∧
    RunState.running.code = 0 ∧ RunState.halted.code = 1 ∧ (∀ f, (RunState.failed f).code = 2) ∧
    s.runState.code ≠ 3 ∧
    failCode none = 0 ∧ (∀ e, failCode (some (.malformedProgram e)) = 1) ∧
    (∀ p, failCode (some (.inputExhausted p)) = 2) ∧ ∀ p, failCode (some (.outputFailure p)) = 3

/-- R5, R22, R23: `W_ip` and `W_dp` are the smallest widths R5 asks for, and hold both pointers of a legal state. -/
def Obligations.PointersFitTheirWidths : Prop :=
  ∀ s : State, s.legal = true →
    (1 ≤ s.ipWidth ∧ s.prog.length < 2 ^ s.ipWidth ∧
      ∀ w, 1 ≤ w → s.prog.length < 2 ^ w → s.ipWidth ≤ w) ∧
    (1 ≤ s.dpWidth ∧ s.cfg.n ≤ 2 ^ s.dpWidth ∧ ∀ w, 1 ≤ w → s.cfg.n ≤ 2 ^ w → s.dpWidth ≤ w) ∧
    s.ip < 2 ^ s.ipWidth ∧ s.dp < 2 ^ s.dpWidth

/-! ### Invariants of every run (`10_state.md` R35) -/

/-- R35, one step: whatever state a step answers is legal. -/
def Obligations.StepKeepsLegal : Prop :=
  ∀ s t : State, step s = .next t → t.legal = true

/-- From R35, for every reachable state: the ranges of the pointers, the extent of the tape (that an index outside it
reads 0 is the form of the tape's list, log entry 13), the traces, the empty output and absent table of a construction
failure, and the program and table of a state without a failure. R35's values of the pointers and cells after
`MalformedProgram` are left out (U18: no claim should rest on them); its count of accepted writes is
`OutputCountsTheAcceptedWrites`. -/
def Obligations.ReachableStatesKeepTheInvariants : Prop :=
  ∀ t : State, Reachable t →
    t.ip ≤ t.prog.length ∧ t.dp < t.cfg.n ∧ (∀ a, t.cfg.n ≤ a → t.memRead a = 0) ∧
    t.out = t.outRaw.map (fmt t.cfg.glyph) ∧ t.out.length = t.outRaw.length ∧
    (∀ e, t.fail = some (.malformedProgram e) → t.out = [] ∧ t.jt = none) ∧
    (t.fail = none → ∃ table, resolve t.prog = .table table ∧ t.jt = some table)

/-- The host's interface (log entry 4, the model's convention): the state with a word placed is ready, has the word's
instruction at `ip`, and its next step runs exactly that. -/
def Obligations.PlacedWordIsRunNext : Prop :=
  ∀ (s : State) (nbits w : Nat), s.legal = true →
    Ready (s.withFetchWord nbits w) ∧
    decodeTableWord nbits w = classAt (s.withFetchWord nbits w).prog (s.withFetchWord nbits w).ip ∧
    ∃ i, decodeTableWord nbits w = some i ∧
      step (s.withFetchWord nbits w) = exec i (s.withFetchWord nbits w)

/-- R35, R30: after any run from construction, both traces are as long as the number of `.` steps of the run that
ended with `Accept`. -/
def Obligations.OutputCountsTheAcceptedWrites : Prop :=
  ∀ cfg prog inp sink (s t : State) (k : Nat),
    construct cfg prog inp sink = .next s → core.run k s = .next t →
    t.out.length = acceptedWrites k s ∧ t.outRaw.length = acceptedWrites k s
end

