-- ==== Sys2Proof/Laws/Decode.lean ====
section
/-! SUPPORT. When the decoder answers which class: one lemma per class. -/

namespace Sys2Proof

theorem decode_eq_right {c : Symbol} : decode c = .right ↔ c = codeRight := by
  revert c; decide

theorem decode_eq_left {c : Symbol} : decode c = .left ↔ c = codeLeft := by
  revert c; decide

theorem decode_eq_inc {c : Symbol} : decode c = .inc ↔ c = codeInc := by
  revert c; decide

theorem decode_eq_dec {c : Symbol} : decode c = .dec ↔ c = codeDec := by
  revert c; decide

theorem decode_eq_loopOpen {c : Symbol} : decode c = .loopOpen ↔ c = codeOpen := by
  revert c; decide

theorem decode_eq_loopClose {c : Symbol} : decode c = .loopClose ↔ c = codeClose := by
  revert c; decide

theorem decode_eq_output {c : Symbol} : decode c = .output ↔ c = codeOut := by
  revert c; decide

theorem decode_eq_input {c : Symbol} : decode c = .input ↔ c = codeIn := by
  revert c; decide

/-- A NOP carries the code it was decoded from. -/
theorem code_of_decode_eq_nop {c d : Symbol} (h : decode c = .nop d) : d = c := by
  unfold decode at h
  repeat' split at h
  all_goals cases h
  rfl

end Sys2Proof
end

