-- ==== Sys2Proof/Laws/Memory.lean ====
section
/-! SUPPORT. The tape's laws: read after write, and that a write keeps the canonical form and the tape's bounds. -/

namespace Sys2Proof.Machine.Memory

@[simp] theorem read_nil (a : Nat) : read [] a = unlisted := rfl

theorem wfFrom_mono {lo lo' : Nat} {m : Memory} (h : lo' ≤ lo) (hm : wfFrom lo m = true) : wfFrom lo' m = true := by
  cases m with
  | nil => rfl
  | cons c m =>
    simp only [wfFrom, Bool.and_eq_true, decide_eq_true_eq] at hm ⊢
    exact ⟨⟨by omega, hm.1.2⟩, hm.2⟩

/-- A canonical tape reads as unlisted below its first index. -/
theorem read_below {lo a : Nat} {m : Memory} (hm : wfFrom lo m = true) (ha : a < lo) : read m a = unlisted := by
  induction m generalizing lo with
  | nil => rfl
  | cons c m ih =>
    simp only [wfFrom, Bool.and_eq_true, decide_eq_true_eq] at hm
    have hne : a ≠ c.1 := by omega
    simp only [read, hne, if_false]
    exact ih hm.2 (by omega)

theorem read_write_same_from {lo : Nat} {m : Memory} (hm : wfFrom lo m = true) (a : Nat) (v : Byte) :
    read (write m a v) a = v := by
  induction m generalizing lo with
  | nil => by_cases hv : v = unlisted <;> simp [write, read, hv]
  | cons c m ih =>
    simp only [wfFrom, Bool.and_eq_true, decide_eq_true_eq] at hm
    rcases Nat.lt_trichotomy a c.1 with h | h | h
    · by_cases hv : v = unlisted
      · have hne : a ≠ c.1 := by omega
        simp only [write, h, hv, if_true, read, hne, if_false]
        exact read_below hm.2 (by omega)
      · simp [write, h, hv, read]
    · by_cases hv : v = unlisted
      · simp only [write, h, Nat.lt_irrefl, hv, if_true, if_false]
        exact read_below hm.2 (by omega)
      · simp [write, h, hv, read]
    · have h1 : ¬ a < c.1 := by omega
      have h2 : a ≠ c.1 := by omega
      simp only [write, h1, h2, if_false, read]
      exact ih hm.2

theorem read_write_other (m : Memory) {a b : Nat} (h : b ≠ a) (v : Byte) : read (write m a v) b = read m b := by
  induction m with
  | nil => by_cases hv : v = unlisted <;> simp [write, read, hv, h]
  | cons c m ih =>
    by_cases h1 : a < c.1
    · by_cases hv : v = unlisted <;> simp [write, h1, hv, read, h]
    · by_cases h2 : a = c.1
      · have h3 : b ≠ c.1 := h2 ▸ h
        by_cases hv : v = unlisted <;> simp [write, h2, hv, read, h3]
      · simp only [write, h1, h2, if_false, read, ih]

theorem write_wfFrom {lo a : Nat} {m : Memory} (hm : wfFrom lo m = true) (ha : lo ≤ a) (v : Byte) :
    wfFrom lo (write m a v) = true := by
  induction m generalizing lo with
  | nil => by_cases hv : v = unlisted <;> simp [write, wfFrom, hv, ha]
  | cons c m ih =>
    have hc := hm
    simp only [wfFrom, Bool.and_eq_true, decide_eq_true_eq] at hc
    rcases Nat.lt_trichotomy a c.1 with h | h | h
    · by_cases hv : v = unlisted
      · simp only [write, h, hv, if_true]
        exact hm
      · simp only [write, h, hv, if_true, if_false, wfFrom, Bool.and_eq_true, decide_eq_true_eq]
        exact ⟨⟨ha, hv⟩, ⟨⟨by omega, hc.1.2⟩, hc.2⟩⟩
    · by_cases hv : v = unlisted
      · simp only [write, h, Nat.lt_irrefl, hv, if_true, if_false]
        exact wfFrom_mono (by omega) hc.2
      · simp only [write, h, Nat.lt_irrefl, hv, if_true, if_false, wfFrom, Bool.and_eq_true, decide_eq_true_eq]
        exact ⟨⟨by omega, hv⟩, hc.2⟩
    · have h1 : ¬ a < c.1 := by omega
      have h2 : a ≠ c.1 := by omega
      simp only [write, h1, h2, if_false, wfFrom, Bool.and_eq_true, decide_eq_true_eq]
      exact ⟨hc.1, ih hc.2 (by omega)⟩

/-- A write keeps the canonical form. -/
theorem write_wf {m : Memory} (hm : wf m = true) (a : Nat) (v : Byte) : wf (write m a v) = true :=
  write_wfFrom hm (Nat.zero_le a) v

/-- Reading the cell just written gives the value written. -/
theorem read_write_same {m : Memory} (hm : wf m = true) (a : Nat) (v : Byte) : read (write m a v) a = v :=
  read_write_same_from hm a v

/-- A write to one of the tape's cells lists no index outside the tape. -/
theorem write_within {n a : Nat} {m : Memory} (hm : within n m = true) (ha : a < n) (v : Byte) :
    within n (write m a v) = true := by
  induction m with
  | nil => by_cases hv : v = unlisted <;> simp [write, within, hv, ha]
  | cons c m ih =>
    have hc : decide (c.1 < n) = true ∧ within n m = true := by simpa [within] using hm
    by_cases h1 : a < c.1
    · by_cases hv : v = unlisted
      · simpa only [write, h1, hv, if_true] using hm
      · simp only [write, h1, hv, if_true, if_false]
        simpa [within, ha] using hm
    · by_cases h2 : a = c.1
      · by_cases hv : v = unlisted
        · simp only [write, h2, Nat.lt_irrefl, hv, if_true, if_false]
          exact hc.2
        · simp only [write, h2, Nat.lt_irrefl, hv, if_true, if_false]
          simpa [within] using hm
      · simp only [write, h1, h2, if_false]
        simpa [within] using And.intro (decide_eq_true_eq.mp hc.1) (ih hc.2)

end Sys2Proof.Machine.Memory
end

