-- ==== Sys2Proof/Laws/State.lean ====
section
/-! SUPPORT. One lemma per field per update of the state, each true by `rfl`. -/

namespace Sys2Proof.Machine

/-! `setIp`. -/

@[simp] theorem State.setIp_cfg (s : State) (t : Nat) : (s.setIp t).cfg = s.cfg := rfl
@[simp] theorem State.setIp_prog (s : State) (t : Nat) : (s.setIp t).prog = s.prog := rfl
@[simp] theorem State.setIp_jt (s : State) (t : Nat) : (s.setIp t).jt = s.jt := rfl
@[simp] theorem State.setIp_ip (s : State) (t : Nat) : (s.setIp t).ip = t := rfl
@[simp] theorem State.setIp_dp (s : State) (t : Nat) : (s.setIp t).dp = s.dp := rfl
@[simp] theorem State.setIp_tape (s : State) (t : Nat) : (s.setIp t).tape = s.tape := rfl
@[simp] theorem State.setIp_fail (s : State) (t : Nat) : (s.setIp t).fail = s.fail := rfl
@[simp] theorem State.setIp_out (s : State) (t : Nat) : (s.setIp t).out = s.out := rfl
@[simp] theorem State.setIp_outRaw (s : State) (t : Nat) : (s.setIp t).outRaw = s.outRaw := rfl
@[simp] theorem State.setIp_inp (s : State) (t : Nat) : (s.setIp t).inp = s.inp := rfl
@[simp] theorem State.setIp_sink (s : State) (t : Nat) : (s.setIp t).sink = s.sink := rfl

/-! `setDp`. -/

@[simp] theorem State.setDp_cfg (s : State) (t : Nat) : (s.setDp t).cfg = s.cfg := rfl
@[simp] theorem State.setDp_prog (s : State) (t : Nat) : (s.setDp t).prog = s.prog := rfl
@[simp] theorem State.setDp_jt (s : State) (t : Nat) : (s.setDp t).jt = s.jt := rfl
@[simp] theorem State.setDp_ip (s : State) (t : Nat) : (s.setDp t).ip = s.ip := rfl
@[simp] theorem State.setDp_dp (s : State) (t : Nat) : (s.setDp t).dp = t := rfl
@[simp] theorem State.setDp_tape (s : State) (t : Nat) : (s.setDp t).tape = s.tape := rfl
@[simp] theorem State.setDp_fail (s : State) (t : Nat) : (s.setDp t).fail = s.fail := rfl
@[simp] theorem State.setDp_out (s : State) (t : Nat) : (s.setDp t).out = s.out := rfl
@[simp] theorem State.setDp_outRaw (s : State) (t : Nat) : (s.setDp t).outRaw = s.outRaw := rfl
@[simp] theorem State.setDp_inp (s : State) (t : Nat) : (s.setDp t).inp = s.inp := rfl
@[simp] theorem State.setDp_sink (s : State) (t : Nat) : (s.setDp t).sink = s.sink := rfl

/-! `advance`. -/

@[simp] theorem State.advance_cfg (s : State) : (s.advance).cfg = s.cfg := rfl
@[simp] theorem State.advance_prog (s : State) : (s.advance).prog = s.prog := rfl
@[simp] theorem State.advance_jt (s : State) : (s.advance).jt = s.jt := rfl
@[simp] theorem State.advance_ip (s : State) : (s.advance).ip = s.ip + 1 := rfl
@[simp] theorem State.advance_dp (s : State) : (s.advance).dp = s.dp := rfl
@[simp] theorem State.advance_tape (s : State) : (s.advance).tape = s.tape := rfl
@[simp] theorem State.advance_fail (s : State) : (s.advance).fail = s.fail := rfl
@[simp] theorem State.advance_out (s : State) : (s.advance).out = s.out := rfl
@[simp] theorem State.advance_outRaw (s : State) : (s.advance).outRaw = s.outRaw := rfl
@[simp] theorem State.advance_inp (s : State) : (s.advance).inp = s.inp := rfl
@[simp] theorem State.advance_sink (s : State) : (s.advance).sink = s.sink := rfl

/-! `memWrite`. -/

@[simp] theorem State.memWrite_cfg (s : State) (a : Nat) (v : Byte) : (s.memWrite a v).cfg = s.cfg := rfl
@[simp] theorem State.memWrite_prog (s : State) (a : Nat) (v : Byte) : (s.memWrite a v).prog = s.prog := rfl
@[simp] theorem State.memWrite_jt (s : State) (a : Nat) (v : Byte) : (s.memWrite a v).jt = s.jt := rfl
@[simp] theorem State.memWrite_ip (s : State) (a : Nat) (v : Byte) : (s.memWrite a v).ip = s.ip := rfl
@[simp] theorem State.memWrite_dp (s : State) (a : Nat) (v : Byte) : (s.memWrite a v).dp = s.dp := rfl
@[simp] theorem State.memWrite_tape (s : State) (a : Nat) (v : Byte) : (s.memWrite a v).tape = s.tape.write a v := rfl
@[simp] theorem State.memWrite_fail (s : State) (a : Nat) (v : Byte) : (s.memWrite a v).fail = s.fail := rfl
@[simp] theorem State.memWrite_out (s : State) (a : Nat) (v : Byte) : (s.memWrite a v).out = s.out := rfl
@[simp] theorem State.memWrite_outRaw (s : State) (a : Nat) (v : Byte) : (s.memWrite a v).outRaw = s.outRaw := rfl
@[simp] theorem State.memWrite_inp (s : State) (a : Nat) (v : Byte) : (s.memWrite a v).inp = s.inp := rfl
@[simp] theorem State.memWrite_sink (s : State) (a : Nat) (v : Byte) : (s.memWrite a v).sink = s.sink := rfl

/-! `setCell`. -/

@[simp] theorem State.setCell_cfg (s : State) (v : Byte) : (s.setCell v).cfg = s.cfg := rfl
@[simp] theorem State.setCell_prog (s : State) (v : Byte) : (s.setCell v).prog = s.prog := rfl
@[simp] theorem State.setCell_jt (s : State) (v : Byte) : (s.setCell v).jt = s.jt := rfl
@[simp] theorem State.setCell_ip (s : State) (v : Byte) : (s.setCell v).ip = s.ip := rfl
@[simp] theorem State.setCell_dp (s : State) (v : Byte) : (s.setCell v).dp = s.dp := rfl
@[simp] theorem State.setCell_tape (s : State) (v : Byte) : (s.setCell v).tape = s.tape.write s.dp v := rfl
@[simp] theorem State.setCell_fail (s : State) (v : Byte) : (s.setCell v).fail = s.fail := rfl
@[simp] theorem State.setCell_out (s : State) (v : Byte) : (s.setCell v).out = s.out := rfl
@[simp] theorem State.setCell_outRaw (s : State) (v : Byte) : (s.setCell v).outRaw = s.outRaw := rfl
@[simp] theorem State.setCell_inp (s : State) (v : Byte) : (s.setCell v).inp = s.inp := rfl
@[simp] theorem State.setCell_sink (s : State) (v : Byte) : (s.setCell v).sink = s.sink := rfl

/-! `raise`. -/

@[simp] theorem State.raise_cfg (s : State) (f : Failure) : (s.raise f).cfg = s.cfg := rfl
@[simp] theorem State.raise_prog (s : State) (f : Failure) : (s.raise f).prog = s.prog := rfl
@[simp] theorem State.raise_jt (s : State) (f : Failure) : (s.raise f).jt = s.jt := rfl
@[simp] theorem State.raise_ip (s : State) (f : Failure) : (s.raise f).ip = s.ip := rfl
@[simp] theorem State.raise_dp (s : State) (f : Failure) : (s.raise f).dp = s.dp := rfl
@[simp] theorem State.raise_tape (s : State) (f : Failure) : (s.raise f).tape = s.tape := rfl
@[simp] theorem State.raise_fail (s : State) (f : Failure) : (s.raise f).fail = some f := rfl
@[simp] theorem State.raise_out (s : State) (f : Failure) : (s.raise f).out = s.out := rfl
@[simp] theorem State.raise_outRaw (s : State) (f : Failure) : (s.raise f).outRaw = s.outRaw := rfl
@[simp] theorem State.raise_inp (s : State) (f : Failure) : (s.raise f).inp = s.inp := rfl
@[simp] theorem State.raise_sink (s : State) (f : Failure) : (s.raise f).sink = s.sink := rfl

/-! `emit`. -/

@[simp] theorem State.emit_cfg (s : State) (u v : Byte) : (s.emit u v).cfg = s.cfg := rfl
@[simp] theorem State.emit_prog (s : State) (u v : Byte) : (s.emit u v).prog = s.prog := rfl
@[simp] theorem State.emit_jt (s : State) (u v : Byte) : (s.emit u v).jt = s.jt := rfl
@[simp] theorem State.emit_ip (s : State) (u v : Byte) : (s.emit u v).ip = s.ip := rfl
@[simp] theorem State.emit_dp (s : State) (u v : Byte) : (s.emit u v).dp = s.dp := rfl
@[simp] theorem State.emit_tape (s : State) (u v : Byte) : (s.emit u v).tape = s.tape := rfl
@[simp] theorem State.emit_fail (s : State) (u v : Byte) : (s.emit u v).fail = s.fail := rfl
@[simp] theorem State.emit_out (s : State) (u v : Byte) : (s.emit u v).out = s.out ++ [u] := rfl
@[simp] theorem State.emit_outRaw (s : State) (u v : Byte) : (s.emit u v).outRaw = s.outRaw ++ [v] := rfl
@[simp] theorem State.emit_inp (s : State) (u v : Byte) : (s.emit u v).inp = s.inp := rfl
@[simp] theorem State.emit_sink (s : State) (u v : Byte) : (s.emit u v).sink = s.sink := rfl

/-! `setInp`. -/

@[simp] theorem State.setInp_cfg (s : State) (k : Script InAnswer) : (s.setInp k).cfg = s.cfg := rfl
@[simp] theorem State.setInp_prog (s : State) (k : Script InAnswer) : (s.setInp k).prog = s.prog := rfl
@[simp] theorem State.setInp_jt (s : State) (k : Script InAnswer) : (s.setInp k).jt = s.jt := rfl
@[simp] theorem State.setInp_ip (s : State) (k : Script InAnswer) : (s.setInp k).ip = s.ip := rfl
@[simp] theorem State.setInp_dp (s : State) (k : Script InAnswer) : (s.setInp k).dp = s.dp := rfl
@[simp] theorem State.setInp_tape (s : State) (k : Script InAnswer) : (s.setInp k).tape = s.tape := rfl
@[simp] theorem State.setInp_fail (s : State) (k : Script InAnswer) : (s.setInp k).fail = s.fail := rfl
@[simp] theorem State.setInp_out (s : State) (k : Script InAnswer) : (s.setInp k).out = s.out := rfl
@[simp] theorem State.setInp_outRaw (s : State) (k : Script InAnswer) : (s.setInp k).outRaw = s.outRaw := rfl
@[simp] theorem State.setInp_inp (s : State) (k : Script InAnswer) : (s.setInp k).inp = k := rfl
@[simp] theorem State.setInp_sink (s : State) (k : Script InAnswer) : (s.setInp k).sink = s.sink := rfl

/-! `setSink`. -/

@[simp] theorem State.setSink_cfg (s : State) (k : Script OutAnswer) : (s.setSink k).cfg = s.cfg := rfl
@[simp] theorem State.setSink_prog (s : State) (k : Script OutAnswer) : (s.setSink k).prog = s.prog := rfl
@[simp] theorem State.setSink_jt (s : State) (k : Script OutAnswer) : (s.setSink k).jt = s.jt := rfl
@[simp] theorem State.setSink_ip (s : State) (k : Script OutAnswer) : (s.setSink k).ip = s.ip := rfl
@[simp] theorem State.setSink_dp (s : State) (k : Script OutAnswer) : (s.setSink k).dp = s.dp := rfl
@[simp] theorem State.setSink_tape (s : State) (k : Script OutAnswer) : (s.setSink k).tape = s.tape := rfl
@[simp] theorem State.setSink_fail (s : State) (k : Script OutAnswer) : (s.setSink k).fail = s.fail := rfl
@[simp] theorem State.setSink_out (s : State) (k : Script OutAnswer) : (s.setSink k).out = s.out := rfl
@[simp] theorem State.setSink_outRaw (s : State) (k : Script OutAnswer) : (s.setSink k).outRaw = s.outRaw := rfl
@[simp] theorem State.setSink_inp (s : State) (k : Script OutAnswer) : (s.setSink k).inp = s.inp := rfl
@[simp] theorem State.setSink_sink (s : State) (k : Script OutAnswer) : (s.setSink k).sink = k := rfl

/-! Reading a cell after an update of another field. -/

@[simp] theorem State.memRead_setIp (s : State) (t : Nat) (x : Nat) : (s.setIp t).memRead x = s.memRead x := rfl
@[simp] theorem State.memRead_setDp (s : State) (t : Nat) (x : Nat) : (s.setDp t).memRead x = s.memRead x := rfl
@[simp] theorem State.memRead_advance (s : State) (x : Nat) : (s.advance).memRead x = s.memRead x := rfl
@[simp] theorem State.memRead_raise (s : State) (f : Failure) (x : Nat) : (s.raise f).memRead x = s.memRead x := rfl
@[simp] theorem State.memRead_emit (s : State) (u v : Byte) (x : Nat) : (s.emit u v).memRead x = s.memRead x := rfl
@[simp] theorem State.memRead_setInp (s : State) (k : Script InAnswer) (x : Nat) : (s.setInp k).memRead x = s.memRead x := rfl
@[simp] theorem State.memRead_setSink (s : State) (k : Script OutAnswer) (x : Nat) : (s.setSink k).memRead x = s.memRead x := rfl

end Sys2Proof.Machine
end

