-- ==== Sys2Proof/Laws/Ops.lean ====
section
/-! SUPPORT. For each shared operation, one lemma that says all it can do; what a ready state is; what a step that
answers a next state has done. -/

namespace Sys2Proof.Machine

theorem nextOf_eq_some {r : Result} {t : State} : nextOf r = some t ↔ r = .next t := by
  cases r <;> simp [nextOf]

theorem exists_next_of_isSome {r : Result} (h : (nextOf r).isSome = true) : ∃ t, r = .next t := by
  obtain ⟨t, ht⟩ := Option.isSome_iff_exists.mp h
  exact ⟨t, nextOf_eq_some.mp ht⟩

theorem isRunning_iff {s : State} : s.isRunning = true ↔ s.fail = none ∧ s.ip < s.prog.length := by
  simp [State.isRunning]

theorem pointersLegal_iff {s : State} : s.pointersLegal = true ↔ s.ip ≤ s.prog.length ∧ s.dp < s.cfg.n := by
  simp [State.pointersLegal]

theorem tapeLegal_iff {s : State} :
    s.tapeLegal = true ↔ s.tape.wf = true ∧ s.tape.within s.cfg.n = true := by
  simp [State.tapeLegal]

theorem tracesLegal_iff {s : State} : s.tracesLegal = true ↔ s.out = s.outRaw.map (fmt s.cfg.glyph) := by
  simp [State.tracesLegal]

theorem legal_iff {s : State} :
    s.legal = true ↔
      s.pointersLegal = true ∧ s.tapeLegal = true ∧ s.tracesLegal = true ∧ s.tableLegal = true := by
  simp [State.legal, and_assoc]

/-- A state without a failure is legal in its table exactly when the program is well-formed and the table its own. -/
theorem tableLegal_of_no_failure {s : State} (h : s.fail = none) :
    s.tableLegal = true ↔ ∃ t, resolve s.prog = .table t ∧ s.jt = some t := by
  unfold State.tableLegal
  split <;> simp_all

theorem whenRunning_ready {s : State} (h : Ready s) (effect : Result) : whenRunning s effect = effect := by
  simp [whenRunning, h.1, h.2]

theorem noStep_cases (s : State) :
    (∃ f, s.fail = some f ∧ noStep s = .fault (.failed f)) ∨ (s.fail = none ∧ noStep s = .fault .halted) ∨
      (s.legal = false ∧ noStep s = .refused .unreachableState) := by
  unfold noStep
  cases hl : s.legal with
  | false => exact .inr (.inr ⟨rfl, rfl⟩)
  | true =>
    cases hf : s.fail with
    | none => exact .inr (.inl ⟨rfl, rfl⟩)
    | some f => exact .inl ⟨f, rfl, rfl⟩

theorem noStep_ne_next (s t : State) : noStep s ≠ .next t := by
  obtain ⟨f, -, h⟩ | ⟨-, h⟩ | ⟨-, h⟩ := noStep_cases s <;> simp [h]

/-- The guard's only way to a next state is the effect's, from a ready state. -/
theorem whenRunning_next {s t : State} {effect : Result} (h : whenRunning s effect = .next t) :
    Ready s ∧ effect = .next t := by
  unfold whenRunning at h
  split at h
  · next hg =>
    rw [Bool.and_eq_true] at hg
    exact ⟨⟨hg.2, hg.1⟩, h⟩
  · exact absurd h (noStep_ne_next s t)

theorem jump_next {s t : State} (h : jump s = .next t) : ∃ j, s.jumpEntry = some j ∧ t = s.setIp (j + 1) := by
  unfold jump at h
  split at h
  · next j hj => exact ⟨j, hj, by injection h with h; exact h.symm⟩
  · cases h

/-- A request answers and leaves exactly this. -/
theorem Script.request_cases {α : Type} (k : Script α) :
    (∃ a rest, k.answers = a :: rest ∧ k.request = some (a, { k with answers := rest })) ∨
      (∃ a, k.answers = [] ∧ k.thereafter = some a ∧ k.request = some (a, k)) ∨
      (k.answers = [] ∧ k.thereafter = none ∧ k.request = none) := by
  obtain ⟨as, th⟩ := k
  cases as with
  | cons a rest => exact .inl ⟨a, rest, rfl, rfl⟩
  | nil =>
    cases th with
    | some a => exact .inr (.inl ⟨a, rfl, rfl, rfl⟩)
    | none => exact .inr (.inr ⟨rfl, rfl, rfl⟩)

@[simp] theorem memRead_memWrite_other (s : State) {a b : Nat} (h : b ≠ a) (v : Byte) :
    (s.memWrite a v).memRead b = s.memRead b :=
  Memory.read_write_other s.tape h v

theorem memRead_memWrite_same {s : State} (h : s.tapeLegal = true) (a : Nat) (v : Byte) :
    (s.memWrite a v).memRead a = v :=
  Memory.read_write_same (tapeLegal_iff.mp h).1 a v

/-- A write to a cell of the tape keeps the tape legal. -/
theorem memWrite_tapeLegal {s : State} (h : s.tapeLegal = true) {a : Nat} (ha : a < s.cfg.n) (v : Byte) :
    (s.memWrite a v).tapeLegal = true := by
  rw [tapeLegal_iff] at h ⊢
  exact ⟨Memory.write_wf h.1 a v, Memory.write_within h.2 ha v⟩

/-- Every next state that `exec` can answer, with the state it came from: one case per effect. -/
theorem exec_next {i : Instr} {s t : State} (h : exec i s = .next t) :
    Ready s ∧
      ((i = .right ∧ t = (s.setDp (moveRight s.cfg.n s.dp)).advance) ∨
        (i = .left ∧ t = (s.setDp (moveLeft s.cfg.n s.dp)).advance) ∨
        (i = .inc ∧ t = (s.setCell (inc8 s.cell)).advance) ∨
        (i = .dec ∧ t = (s.setCell (dec8 s.cell)).advance) ∨
        (i = .loopOpen ∧ isZero s.cell = false ∧ t = s.advance) ∨
        (i = .loopOpen ∧ isZero s.cell = true ∧ ∃ j, s.jumpEntry = some j ∧ t = s.setIp (j + 1)) ∨
        (i = .loopClose ∧ isZero s.cell = true ∧ t = s.advance) ∨
        (i = .loopClose ∧ isZero s.cell = false ∧ ∃ j, s.jumpEntry = some j ∧ t = s.setIp (j + 1)) ∨
        (i = .output ∧ (∃ k, s.sink.request = some (.reject, k)) ∧ t = s.raise (.outputFailure s.ip)) ∨
        (i = .output ∧ ∃ k, s.sink.request = some (.accept, k) ∧
          t = ((s.setSink k).emit (fmt s.cfg.glyph s.cell) s.cell).advance) ∨
        (i = .input ∧ ∃ b k, s.inp.request = some (.byte b, k) ∧ t = ((s.setInp k).setCell b).advance) ∨
        (i = .input ∧ s.cfg.eofPolicy = .leaveUnchanged ∧
          ∃ k, s.inp.request = some (.eof, k) ∧ t = (s.setInp k).advance) ∨
        (i = .input ∧ s.cfg.eofPolicy = .fail ∧ (∃ k, s.inp.request = some (.eof, k)) ∧
          t = s.raise (.inputExhausted s.ip)) ∨
        ((∃ c, i = .nop c) ∧ t = s.advance)) := by
  cases i with
  | right =>
    obtain ⟨hr, he⟩ := whenRunning_next (show whenRunning s _ = _ from h)
    injection he with he
    exact ⟨hr, by simp [he]⟩
  | left =>
    obtain ⟨hr, he⟩ := whenRunning_next (show whenRunning s _ = _ from h)
    injection he with he
    exact ⟨hr, by simp [he]⟩
  | inc =>
    obtain ⟨hr, he⟩ := whenRunning_next (show whenRunning s _ = _ from h)
    injection he with he
    exact ⟨hr, by simp [he]⟩
  | dec =>
    obtain ⟨hr, he⟩ := whenRunning_next (show whenRunning s _ = _ from h)
    injection he with he
    exact ⟨hr, by simp [he]⟩
  | loopOpen =>
    obtain ⟨hr, he⟩ := whenRunning_next (show whenRunning s _ = _ from h)
    refine ⟨hr, ?_⟩
    split at he
    · next hz => simp [hz, jump_next he]
    · next hz => injection he with he; simp [hz, he]
  | loopClose =>
    obtain ⟨hr, he⟩ := whenRunning_next (show whenRunning s _ = _ from h)
    refine ⟨hr, ?_⟩
    split at he
    · next hz => injection he with he; simp [hz, he]
    · next hz => simp [hz, jump_next he]
  | output =>
    obtain ⟨hr, he⟩ := whenRunning_next (show whenRunning s _ = _ from h)
    refine ⟨hr, ?_⟩
    split at he
    · cases he
    · next k hk => injection he with he; simp [hk, he]
    · next k hk => injection he with he; simp [hk, he]
  | input =>
    obtain ⟨hr, he⟩ := whenRunning_next (show whenRunning s _ = _ from h)
    refine ⟨hr, ?_⟩
    split at he
    · cases he
    · next b k hk => injection he with he; simp [hk, he]
    · next k hk =>
      split at he
      · next hp => injection he with he; simp [hk, hp, he]
      · next hp => injection he with he; simp [hk, hp, he]
  | nop c =>
    obtain ⟨hr, he⟩ := whenRunning_next (show whenRunning s _ = _ from h)
    injection he with he
    exact ⟨hr, by simp [he]⟩

/-- A fetch is of the symbol at `ip`, in a running state. -/
theorem fetch_eq_some {s : State} {c : Symbol} (h : s.fetch = some c) :
    s.isRunning = true ∧ s.prog[s.ip]? = some c := by
  unfold State.fetch at h
  split at h
  · next hr => exact ⟨hr, h⟩
  · cases h

/-- A step to a next state is the execution, from a ready state, of the instruction decoded at `ip`. -/
theorem step_next {s t : State} (h : step s = .next t) :
    ∃ c, s.prog[s.ip]? = some c ∧ exec (decode c) s = .next t := by
  unfold step at h
  split at h
  · next c hc => exact ⟨c, (fetch_eq_some hc).2, h⟩
  · exact absurd h (noStep_ne_next s t)

end Sys2Proof.Machine
end

