-- ==== Sys2Proof/Laws/PerInstr.lean ====
section
/-! SUPPORT. Laws made per instruction. `DecodedWellFormed`: whatever symbol the instruction was decoded from, it is
well-formed. -/

namespace Sys2Proof.Laws.DecodedWellFormed

/-- If the decoder answers `i` for some code, `i` is well-formed. -/
def Statement (i : Instr) : Prop :=
  ∀ c : Symbol, decode c = i → i.wellFormed = true

theorem right : Statement .right := fun _ _ => rfl

theorem left : Statement .left := fun _ _ => rfl

theorem inc : Statement .inc := fun _ _ => rfl

theorem dec : Statement .dec := fun _ _ => rfl

theorem loopOpen : Statement .loopOpen := fun _ _ => rfl

theorem loopClose : Statement .loopClose := fun _ _ => rfl

theorem output : Statement .output := fun _ _ => rfl

theorem input : Statement .input := fun _ _ => rfl

theorem nop (code : Symbol) : Statement (.nop code) := by
  intro c h
  have hc : code = c := code_of_decode_eq_nop h
  subst hc
  revert code
  decide

end Sys2Proof.Laws.DecodedWellFormed
end

