-- ==== Sys2Proof/Laws/Run.lean ====
section
/-! SUPPORT. Runs: unrolling one step, and the induction along a run, packaged once. -/

namespace Sys2Proof

open Machine

@[simp] theorem run_zero (s : State) : core.run 0 s = .next s := rfl

/-- The first step of a run, for any machine of the host's interface. -/
theorem core_run_succ (M : Host.Core) (k : Nat) (s : M.State) :
    M.run (k + 1) s =
      match M.step s with
      | .next t => M.run k t
      | .fault r => .fault r
      | .refused r => .refused r := rfl

theorem run_succ_of_next {s u : State} (h : step s = .next u) (k : Nat) : core.run (k + 1) s = core.run k u := by
  have hs : core.step s = .next u := h
  rw [core_run_succ core k s, hs]

/-- A run of `k + 1` steps that ends in a state made a first step and ran on. -/
theorem run_succ_next {s t : State} {k : Nat} (h : core.run (k + 1) s = .next t) :
    ∃ u, step s = .next u ∧ core.run k u = .next t := by
  rw [core_run_succ core k s] at h
  split at h
  · next u hu => exact ⟨u, hu, h⟩
  · cases h
  · cases h

@[simp] theorem acceptedWrites_zero (s : State) : acceptedWrites 0 s = 0 := rfl

theorem acceptedWrites_succ_of_next {s u : State} (h : step s = .next u) (k : Nat) :
    acceptedWrites (k + 1) s = (if acceptsWrite s then 1 else 0) + acceptedWrites k u := by
  rw [acceptedWrites, h]

theorem acceptsWrite_iff {s : State} :
    acceptsWrite s = true ↔
      classAt s.prog s.ip = some .output ∧ ∃ rest, s.sink.request = some (.accept, rest) := by
  simp [acceptsWrite]

/-- What holds of `s` and is kept by every step holds of all that `s` leads to. -/
theorem Leads.induct {P : State → Prop} {s t : State} (h : Leads s t) (h0 : P s)
    (hs : ∀ a b, P a → step a = .next b → P b) : P t := by
  obtain ⟨k, hk⟩ := h
  induction k generalizing s with
  | zero => rw [run_zero] at hk; cases hk; exact h0
  | succ k ih =>
    obtain ⟨u, hu, hk⟩ := run_succ_next hk
    exact ih (hs _ _ h0 hu) hk

/-- What construction leads to is reachable. -/
theorem Reachable.of_constructed {cfg : Config} {prog : List Symbol} {inp : Script InAnswer} {sink : Script OutAnswer}
    {t : State} (hn : cfg.n ≠ 0) (hl : Leads (constructed cfg prog inp sink) t) : Reachable t :=
  ⟨cfg, prog, inp, sink, _, by simp [construct, hn], hl⟩

end Sys2Proof
end

