-- ==== Sys2Proof/Laws/Units.lean ====
section
/-! SUPPORT. Small facts of the units that work on values: the zero test, the outcome of a resolution, construction. -/

namespace Sys2Proof.Machine

@[simp] theorem isZero_eq_true {v : Byte} : isZero v = true ↔ v = 0 := by
  simp [isZero]

@[simp] theorem isZero_eq_false {v : Byte} : isZero v = false ↔ v ≠ 0 := by
  simp [isZero]

@[simp] theorem toTable_table (t : JumpTable) : (Resolution.table t).toTable? = some t := rfl

@[simp] theorem toTable_malformed (e : BracketError) : (Resolution.malformed e).toTable? = none := rfl

@[simp] theorem failure_table (t : JumpTable) : (Resolution.table t).failure? = none := rfl

@[simp] theorem failure_malformed (e : BracketError) :
    (Resolution.malformed e).failure? = some (.malformedProgram e) := rfl

theorem programWellFormed_iff {prog : List Symbol} :
    programWellFormed prog = true ↔ ∃ t, resolve prog = .table t := by
  unfold programWellFormed
  cases h : resolve prog <;> simp

/-- Construction answers a state only for a tape of at least one cell, and then this one. -/
theorem construct_next {cfg : Config} {prog : List Symbol} {inp : Script InAnswer} {sink : Script OutAnswer}
    {t : State} (h : construct cfg prog inp sink = .next t) : cfg.n ≠ 0 ∧ t = constructed cfg prog inp sink := by
  unfold construct at h
  split at h
  · cases h
  · next hn => injection h with h; exact ⟨hn, h.symm⟩

end Sys2Proof.Machine
end

