-- ==== Sys2Proof/Tests/Slice0.lean ====
section
/-! SUPPORT. The model's own tests: expected results from `95_test_vectors.md` (V.., S..) and the worked examples of
the rules, and one witness for each statement that has hypotheses. -/

namespace Sys2Proof.Tests

open Sys2Proof Sys2Proof.Machine

/-- A sink that accepts every write. -/
def accepting : Script OutAnswer := { answers := [], thereafter := some .accept }

/-- The state after construction with `n` cells, the program `prog` and the input `bytes` (default policy, accepting
sink), as the test vectors start from. -/
def start (n : Nat) (prog : List Symbol) (bytes : List Byte := []) : State :=
  constructed { Config.default with n := n } prog (.ofBytes bytes) accepting

/-- The same with the failing end-of-input policy. -/
def startFail (n : Nat) (prog : List Symbol) (bytes : List Byte := []) : State :=
  constructed { Config.default with n := n, eofPolicy := .fail } prog (.ofBytes bytes) accepting

/-- A state whose cell 0 holds `v`. -/
def withCell (v : Byte) (s : State) : State :=
  { s with tape := if v = 0 then [] else [(0, v)] }

/-! ### Well-formedness and decode -/

theorem test_wellFormed_refuses_nop_of_the_alphabet :
    (alphabet.all fun c => !(Instr.nop c).wellFormed) = true := by decide

theorem test_wellFormed_accepts_nop_of_another_code : (Instr.nop 0x3F).wellFormed = true := by decide

/-- The eight rows of `opcode_table.json`, bit by bit (V1 to V8). -/
theorem test_decode_right : decode 0b00111110 = .right := by decide

theorem test_decode_left : decode 0b00111100 = .left := by decide

theorem test_decode_inc : decode 0b00101011 = .inc := by decide

theorem test_decode_dec : decode 0b00101101 = .dec := by decide

theorem test_decode_loopOpen : decode 0b01011011 = .loopOpen := by decide

theorem test_decode_loopClose : decode 0b01011101 = .loopClose := by decide

theorem test_decode_output : decode 0b00101110 = .output := by decide

theorem test_decode_input : decode 0b00101100 = .input := by decide

/-- V9 and V10: the near misses. -/
theorem test_decode_near_misses :
    (([0x00, 0x0A, 0x20, 0x2A, 0x2F, 0x3D, 0x3F, 0x5A, 0x5C, 0x5E, 0x7B, 0x7D, 0x7F, 0x80, 0xFF,
      0xBE, 0xBC, 0xAB, 0xAD, 0xDB, 0xDD, 0xAE, 0xAC] : List Symbol).all
      fun c => decide (decode c = .nop c)) = true := by decide

theorem test_decode_nothing_is_rejected_by_name :
    (match decodeSymbols [] with | .error e => some e | .ok _ => none) = some .noSymbol := by decide

theorem test_encode_the_eight :
    ([.right, .left, .inc, .dec, .loopOpen, .loopClose, .output, .input] : List Instr).map encode =
      [0x3E, 0x3C, 0x2B, 0x2D, 0x5B, 0x5D, 0x2E, 0x2C] := by decide

theorem test_decodeTableWord :
    decodeTableWord 8 0x3E = some .right ∧ decodeTableWord 8 0x13E = some .right ∧
    decodeTableWord 8 0 = some (.nop 0) := by decide

/-! ### One step of each instruction -/

/-- V12: wrap high. -/
theorem test_right_wraps :
    (nextOf (step { start 30000 [0x3E] with dp := 29999 })).map (fun t => (t.dp, t.ip)) = some (0, 1) := by decide

/-- V14: the one-cell ring. -/
theorem test_right_one_cell : (nextOf (step (start 1 [0x3E]))).map (fun t => (t.dp, t.ip)) = some (0, 1) := by decide

/-- V11: wrap low. -/
theorem test_left_wraps : (nextOf (step (start 30000 [0x3C]))).map (fun t => (t.dp, t.ip)) = some (29999, 1) := by
  decide

/-- V15: the one-cell ring. -/
theorem test_left_one_cell : (nextOf (step (start 1 [0x3C]))).map (fun t => (t.dp, t.ip)) = some (0, 1) := by decide

/-- V19: 255 goes to 0, and the tape is back in its reset form. -/
theorem test_inc_wraps :
    (nextOf (step (withCell 255 (start 4 [0x2B])))).map (fun t => (t.memRead 0, t.tape, t.ip)) =
      some (0, [], 1) := by decide

/-- V21. -/
theorem test_inc_zero : (nextOf (step (start 4 [0x2B]))).map (fun t => (t.tape, t.ip)) = some ([(0, 1)], 1) := by
  decide

/-- V20: 0 goes to 255. -/
theorem test_dec_wraps : (nextOf (step (start 4 [0x2D]))).map (fun t => (t.tape, t.ip)) = some ([(0, 255)], 1) := by
  decide

/-- V22. -/
theorem test_dec_one :
    (nextOf (step (withCell 1 (start 4 [0x2D])))).map (fun t => (t.tape, t.ip)) = some ([], 1) := by decide

/-- R128's example: `[->+<]` on a zero cell jumps to 6. -/
theorem test_loopOpen_skips :
    (nextOf (step (start 4 [0x5B, 0x2D, 0x3E, 0x2B, 0x3C, 0x5D]))).map (fun t => (t.ip, t.runState)) =
      some (6, .halted) := by decide

/-- P1, step 1: a cell of 5 enters the loop. -/
theorem test_loopOpen_enters :
    (nextOf (step (withCell 5 (start 4 [0x5B, 0x2D, 0x3E, 0x2B, 0x3C, 0x5D])))).map State.ip = some 1 := by decide

/-- R129's example: at 5 on a cell of 4 to 1. -/
theorem test_loopClose_repeats :
    (nextOf (step { withCell 4 (start 4 [0x5B, 0x2D, 0x3E, 0x2B, 0x3C, 0x5D]) with ip := 5 })).map State.ip =
      some 1 := by decide

/-- P1, step 26: at 5 on a cell of 0 to 6. -/
theorem test_loopClose_leaves :
    (nextOf (step { start 4 [0x5B, 0x2D, 0x3E, 0x2B, 0x3C, 0x5D] with ip := 5 })).map State.ip = some 6 := by decide

/-- S10: the bell character becomes the placeholder. -/
theorem test_output_formats :
    (nextOf (step (withCell 7 (start 4 [0x2E])))).map (fun t => (t.out, t.outRaw, t.ip)) =
      some ([0x5F], [7], 1) := by decide

/-- V63: a rejected write. -/
theorem test_output_rejected :
    (nextOf (step { start 1 [0x2E] with sink := { answers := [], thereafter := some .reject } })).map
        (fun t => (t.fail, t.ip, t.out)) = some (some (.outputFailure 0), 0, []) := by decide

/-- V57: a byte 0 is data, not end of input. -/
theorem test_input_zero_byte :
    (nextOf (step (withCell 9 (start 1 [0x2C] [0])))).map (fun t => (t.tape, t.inp, t.ip)) =
      some ([], .ofBytes [], 1) := by decide

/-- V55 and V56: the two policies at end of input. -/
theorem test_input_end :
    (nextOf (step (withCell 9 (start 1 [0x2C])))).map (fun t => (t.tape, t.fail, t.ip)) =
      some ([(0, 9)], none, 1) ∧
    (nextOf (step (startFail 4 [0x2C]))).map (fun t => (t.fail, t.ip)) =
      some (some (.inputExhausted 0), 0) := by decide

/-- V51: the code 0 is a NOP, not the end of the program. -/
theorem test_nop_zero :
    (nextOf (step (start 4 [0x00]))).map (fun t => (t.ip, t.tape, t.runState)) = some (1, [], .halted) := by decide

/-- R91, R36, R192: where there is no step, why. -/
theorem test_stops :
    faultOf (step State.reset) = some .halted ∧
    faultOf (step (start 2 [0x5D])) = some (.failed (.malformedProgram (.unmatchedClose 0))) ∧
    refusalOf (step { start 2 [0x2B] with dp := 2 }) = some .unreachableState ∧
    refusalOf (construct { Config.default with n := 0 } [] (.ofBytes []) accepting) = some .zeroLengthTape := by
  decide

/-! ### Construction and the resolver -/

/-- V25 to V32: well-formed programs, some entries of their tables. -/
theorem test_resolve_wellFormed :
    resolve [] = .table [] ∧ resolve [0x2B, 0x2D, 0x3C, 0x3E, 0x2E, 0x2C] = .table [] ∧
    ((resolve [0x5B, 0x5B, 0x5D, 0x5B, 0x5D, 0x5D]).toTable?.map fun t =>
      (List.range 6).map t.entry) = some [some 5, some 2, some 1, some 4, some 3, some 0] ∧
    ((resolve [0x61, 0x5B, 0x62, 0x5D, 0x63]).toTable?.map fun t =>
      (List.range 5).map t.entry) = some [none, some 3, none, some 1, none] := by decide

/-- V33 to V38: the diagnostics. -/
theorem test_resolve_malformed :
    resolve [0x5D] = .malformed (.unmatchedClose 0) ∧ resolve [0x5B] = .malformed (.unmatchedOpen 0) ∧
    resolve [0x5B, 0x5D, 0x5D, 0x5B] = .malformed (.unmatchedClose 2) ∧
    resolve [0x5B, 0x5B, 0x5D] = .malformed (.unmatchedOpen 0) ∧
    resolve [0x5B, 0x5B, 0x5D, 0x5B] = .malformed (.unmatchedOpen 3) ∧
    resolve [0x2B, 0x5B, 0x2D, 0x5D, 0x5D] = .malformed (.unmatchedClose 4) := by decide

/-- The formatter at the edges of its ranges (V65 to V69). -/
theorem test_formatter_edges :
    ([0, 8, 9, 13, 14, 31, 32, 95, 126, 127, 128, 255] : List Byte).map (fmt 0x5F) =
      [0x5F, 0x5F, 9, 13, 0x5F, 0x5F, 32, 95, 126, 0x5F, 0x5F, 0x5F] := by decide

/-- R76: a character outside ASCII is stored as entries of the ignore class (here U+00E9, two bytes). -/
theorem test_assemble_outside_ascii : assemble ['+', 'é'] = [0x2B, 0xC3, 0xA9] := by decide

theorem test_canonical_form_refused :
    (Memory.wf [(1, 5), (1, 6)], Memory.wf [(2, 5), (1, 6)], Memory.wf [(0, 0)]) = (false, false, false) := by decide

theorem test_reset_runs_a_placed_word :
    (nextOf (step (State.reset.withFetchWord 8 0x5D))).map State.ip = some 2 ∧
    (nextOf (step (State.reset.withFetchWord 8 0x5B))).map State.ip = some 2 := by decide

/-! ### Witnesses: for each statement with hypotheses, inputs that meet them -/

theorem witness_DecodeInvertsEncode :
    (∀ i ∈ ([.inc, .nop 0x61] : List Instr), i.wellFormed = true) ∧
    ([.inc, .nop 0x61] : List Instr) = .inc :: [.nop 0x61] := by decide

theorem witness_DecodeFollowsTheSymbolTable :
    (0x61 : Symbol) ∉ ([0x3E, 0x3C, 0x2B, 0x2D, 0x5B, 0x5D, 0x2E, 0x2C] : List Symbol) := by decide

theorem witness_ConstructionOfAWellFormedProgram :
    1 ≤ Config.default.n ∧ programWellFormed [0x5B, 0x5D] = true ∧ programWellFormed [] = true ∧
    0 < ([0x5B, 0x5D] : List Symbol).length := by decide

theorem witness_ConstructionOfAMalformedProgram :
    1 ≤ Config.default.n ∧ resolve [0x5D] = .malformed (.unmatchedClose 0) := by decide

theorem witness_ConstructionRefusesAnEmptyTape :
    ({ Config.default with n := 0 } : Config).n = 0 ∧ 1 ≤ ({ Config.default with n := 1 } : Config).n := by decide

theorem witness_ConstructionLeavesALegalState :
    ∃ t, construct Config.default [0x5D] (.ofBytes []) accepting = .next t :=
  exists_next_of_isSome (by decide)

/-- Also for every statement whose hypotheses are that a state is ready, or legal. -/
theorem witness_StepRunsTheDecodedInstruction : Ready (start 2 [0x2B]) := by decide

theorem witness_TerminalStatesHaveNoStep :
    State.reset.legal = true ∧ State.reset.runState = .halted ∧
    (start 2 [0x5D]).legal = true ∧ (start 2 [0x5D]).runState = .failed (.malformedProgram (.unmatchedClose 0)) ∧
    (start 2 [0x2B]).legal = true ∧ (nextOf (step (start 2 [0x2B]))).isSome = true := by decide

theorem witness_IllegalStatesAreRefused : ({ start 2 [0x2B] with dp := 2 } : State).legal = false := by decide

theorem witness_OnlyTheStreamsBlock :
    Ready (start 2 [0x2B]) ∧ decode 0x2B ≠ .output ∧ decode 0x2B ≠ .input ∧
    Ready (start 2 [0x2E]) ∧ (start 2 [0x2E]).sink.request ≠ none ∧
    Ready { start 2 [0x2E] with sink := { answers := [], thereafter := none } } ∧
    ({ answers := [], thereafter := none } : Script OutAnswer).request = none ∧
    Ready (start 2 [0x2C]) ∧ (start 2 [0x2C]).inp.request ≠ none ∧
    Ready { start 2 [0x2C] with inp := { answers := [], thereafter := none } } ∧
    ({ answers := [], thereafter := none } : Script InAnswer).request = none ∧
    (start 2 [0x2B]).prog[(start 2 [0x2B]).ip]? = some 0x2B ∧
    (start 2 [0x2E]).prog[(start 2 [0x2E]).ip]? = some 0x2E ∧
    (start 2 [0x2C]).prog[(start 2 [0x2C]).ip]? = some 0x2C := by decide

/-- `>` meets every clause but the first, `+` that one; the last clause of `StepAdvancesOrJumps` is met by the
rejected write. -/
theorem witness_StepWritesOnlyWhatItsClassMay :
    (nextOf (step (start 2 [0x3E]))).isSome = true ∧ (start 2 [0x3E]).prog[(start 2 [0x3E]).ip]? = some 0x3E ∧
    decode 0x3E = .right ∧
    (nextOf (step (start 2 [0x2B]))).isSome = true ∧ (start 2 [0x2B]).prog[(start 2 [0x2B]).ip]? = some 0x2B ∧
    decode 0x2B = .inc := by decide

theorem witness_StepKeepsTheConstruction : ∃ t, step (start 2 [0x3E]) = .next t :=
  exists_next_of_isSome (by decide)

theorem witness_StepAdvancesOrJumps :
    (nextOf (step (start 2 [0x5B, 0x5D]))).map (fun t => (t.fail, t.ip)) = some (none, 2) ∧
    (start 2 [0x5B, 0x5D]).prog[(start 2 [0x5B, 0x5D]).ip]? = some 0x5B ∧
    (nextOf (step (startFail 2 [0x2C]))).map (fun t => decide (t.fail = none)) = some false ∧
    (startFail 2 [0x2C]).prog[(startFail 2 [0x2C]).ip]? = some 0x2C := by decide

theorem witness_PointerUnitIsARing : 0 < 1 ∧ 29999 < 30000 := by decide

theorem witness_PointerMovesAddUp :
    (start 2 [0x3E, 0x3C, 0x3E]).legal = true ∧ (start 2 [0x3E, 0x3C, 0x3E]).fail = none ∧
    (([0x3E, 0x3C, 0x3E] : List Symbol).drop 0).take 3 =
      ([true, false, true].map fun up => if up then 0x3E else 0x3C) := by decide

theorem witness_CellStepsAddUp :
    (start 2 [0x2B, 0x2D]).legal = true ∧ (start 2 [0x2B, 0x2D]).fail = none ∧
    (([0x2B, 0x2D] : List Symbol).drop 0).take 2 =
      ([true, false].map fun up => if up then 0x2B else 0x2D) := by decide

theorem witness_ProgramTextIsStoredAsItsCodes : ∀ c ∈ ['[', '-', '~'], c.toNat < 128 := by
  intro c h
  simp only [List.mem_cons, List.not_mem_nil, or_false] at h
  rcases h with rfl | rfl | rfl <;> decide

theorem witness_RightMovesUpTheRing :
    Ready { start 3 [0x3E] with dp := 2 } ∧ ({ start 3 [0x3E] with dp := 2 } : State).dp = 3 - 1 ∧
    Ready (start 1 [0x3E]) ∧ (start 1 [0x3E]).cfg.n = 1 := by decide

theorem witness_LeftMovesDownTheRing :
    Ready (start 3 [0x3C]) ∧ (start 3 [0x3C]).dp = 0 ∧ Ready (start 1 [0x3C]) ∧ (start 1 [0x3C]).cfg.n = 1 := by
  decide

theorem witness_CellWriteChangesOneCell : (start 2 []).legal = true ∧ 1 < (start 2 []).cfg.n := by decide

theorem witness_IncAddsOneToTheCell : Ready (withCell 255 (start 1 [0x2B])) := by decide

theorem witness_DecSubtractsOneFromTheCell : Ready (start 1 [0x2D]) := by decide

/-- For the four statements about the table of a well-formed program: `[[]a]`, with each kind of position. -/
theorem witness_JumpTablePairsTheBrackets :
    resolve [0x5B, 0x5B, 0x5D, 0x61, 0x5D] = .table [(4, 0), (0, 4), (2, 1), (1, 2)] ∧
    classAt [0x5B, 0x5B, 0x5D, 0x61, 0x5D] 0 = some .loopOpen ∧
    classAt [0x5B, 0x5B, 0x5D, 0x61, 0x5D] 4 = some .loopClose := by decide

theorem witness_JumpTablePairsNest :
    resolve [0x5B, 0x5B, 0x5D, 0x61, 0x5D] = .table [(4, 0), (0, 4), (2, 1), (1, 2)] ∧
    classAt [0x5B, 0x5B, 0x5D, 0x61, 0x5D] 0 = some .loopOpen ∧
    classAt [0x5B, 0x5B, 0x5D, 0x61, 0x5D] 1 = some .loopOpen ∧
    JumpTable.entry [(4, 0), (0, 4), (2, 1), (1, 2)] 0 = some 4 ∧
    JumpTable.entry [(4, 0), (0, 4), (2, 1), (1, 2)] 1 = some 2 ∧ 0 < 1 := by decide

theorem witness_JumpTableEntriesAreTheNearestBalanced :
    resolve [0x5B, 0x5B, 0x5D, 0x61, 0x5D] = .table [(4, 0), (0, 4), (2, 1), (1, 2)] ∧
    JumpTable.entry [(4, 0), (0, 4), (2, 1), (1, 2)] 0 = some 4 ∧
    classAt [0x5B, 0x5B, 0x5D, 0x61, 0x5D] 0 = some .loopOpen ∧
    JumpTable.entry [(4, 0), (0, 4), (2, 1), (1, 2)] 4 = some 0 ∧
    classAt [0x5B, 0x5B, 0x5D, 0x61, 0x5D] 4 = some .loopClose := by decide

theorem witness_ScanEngineAgreesWithTheTable :
    resolve [0x5B, 0x5B, 0x5D, 0x61, 0x5D] = .table [(4, 0), (0, 4), (2, 1), (1, 2)] ∧
    classAt [0x5B, 0x5B, 0x5D, 0x61, 0x5D] 1 = some .loopOpen ∧
    classAt [0x5B, 0x5B, 0x5D, 0x61, 0x5D] 2 = some .loopClose := by decide

theorem witness_NopsAreInvisibleToMatching :
    resolve [0x61, 0x5B, 0x62, 0x5D] = .table [(3, 1), (1, 3)] ∧
    JumpTable.entry [(3, 1), (1, 3)] 1 = some 3 := by decide

theorem witness_OpenSkipsOrEntersTheLoop :
    Ready (start 2 [0x5B, 0x5D]) ∧ classAt [0x5B, 0x5D] 0 = some .loopOpen ∧
    (start 2 [0x5B, 0x5D]).ip = 0 ∧ Ready (withCell 1 (start 2 [0x5B, 0x5D])) := by decide

theorem witness_CloseRepeatsOrLeavesTheLoop :
    Ready { start 2 [0x5B, 0x5D] with ip := 1 } ∧ classAt [0x5B, 0x5D] 1 = some .loopClose ∧
    Ready { withCell 1 (start 2 [0x5B, 0x5D]) with ip := 1 } := by decide

theorem witness_JumpWithoutAnEntryIsRefused :
    Ready (start 2 [0x61]) ∧ Ready (withCell 1 (start 2 [0x61])) ∧
    classAt [0x61] 0 ≠ some .loopOpen ∧ classAt [0x61] 0 ≠ some .loopClose := by decide

theorem witness_LoopBackEqualsReentry :
    Ready { withCell 1 (start 2 [0x5B, 0x5D]) with ip := 1 } ∧ classAt [0x5B, 0x5D] 1 = some .loopClose ∧
    (withCell 1 (start 2 [0x5B, 0x5D])).memRead 0 ≠ 0 ∧
    State.jumpEntry { withCell 1 (start 2 [0x5B, 0x5D]) with ip := 1 } = some 0 := by decide

theorem witness_EmptyLoopOnANonZeroCellNeverEnds :
    Ready (start 2 [0x5B, 0x5D]) ∧ (start 2 [0x5B, 0x5D]).memRead 0 = 0 ∧
    Ready (withCell 1 (start 2 [0x5B, 0x5D])) ∧ (withCell 1 (start 2 [0x5B, 0x5D])).memRead 0 ≠ 0 ∧
    classAt [0x5B, 0x5D] 0 = some .loopOpen ∧ classAt [0x5B, 0x5D] 1 = some .loopClose := by decide

/-- Each range at its ends. -/
theorem witness_FormatterPassesDisplayableBytes :
    (9 ≤ (9 : Byte).toNat ∧ (13 : Byte).toNat ≤ 13) ∧ (32 ≤ (32 : Byte).toNat ∧ (126 : Byte).toNat ≤ 126) ∧
    (8 : Byte).toNat ≤ 8 ∧ (14 ≤ (14 : Byte).toNat ∧ (31 : Byte).toNat ≤ 31) ∧ 127 ≤ (127 : Byte).toNat ∧
    displayable 0x5F = true := by decide

theorem witness_OutEmitsTheFormattedCell :
    Ready (start 2 [0x2E]) ∧ (start 2 [0x2E]).sink.request = some (.accept, accepting) ∧
    Ready { start 2 [0x2E] with sink := { answers := [], thereafter := some .reject } } ∧
    ({ answers := [], thereafter := some .reject } : Script OutAnswer).request =
      some (.reject, { answers := [], thereafter := some .reject }) ∧
    Ready { start 2 [0x2E] with sink := { answers := [], thereafter := none } } ∧
    ({ answers := [], thereafter := none } : Script OutAnswer).request = none := by decide

theorem witness_InStoresTheByteOrFollowsThePolicy :
    Ready (start 2 [0x2C] [65]) ∧ (start 2 [0x2C] [65]).inp.request = some (.byte 65, .ofBytes []) ∧
    Ready (start 2 [0x2C]) ∧ (start 2 [0x2C]).inp.request = some (.eof, .ofBytes []) ∧
    (start 2 [0x2C]).cfg.eofPolicy = .leaveUnchanged ∧
    Ready (startFail 2 [0x2C]) ∧ (startFail 2 [0x2C]).inp.request = some (.eof, .ofBytes []) ∧
    (startFail 2 [0x2C]).cfg.eofPolicy = .fail ∧
    Ready { start 2 [0x2C] with inp := { answers := [], thereafter := none } } ∧
    ({ answers := [], thereafter := none } : Script InAnswer).request = none := by decide

theorem leads_of_step {s t : State} (h : step s = .next t) : Leads s t :=
  ⟨1, (run_succ_of_next h 0).trans (run_zero t)⟩

theorem witness_TracesGrowInOrder : ∃ t, Leads (start 2 [0x2E]) t ∧ step (start 2 [0x2E]) = .next t := by
  obtain ⟨t, h⟩ := exists_next_of_isSome (r := step (start 2 [0x2E])) (by decide)
  exact ⟨t, leads_of_step h, h⟩

theorem witness_PlaceholderIsUnobservable : (withCell 7 (start 2 [0x2E])).legal = true := by decide

theorem witness_NopOnlyAdvances : (0x61 : Symbol) ∉ alphabet ∧ Ready (start 2 [0x61]) := by decide

theorem witness_FailureEntryIsPrecise :
    (nextOf (step (startFail 2 [0x2C]))).map State.fail = some (some (.inputExhausted 0)) := by decide

theorem reachable_start (prog : List Symbol) : Reachable (start 2 prog) :=
  .of_constructed (by decide) ⟨0, rfl⟩

/-- A reachable state of each kind of failure. -/
theorem witness_ReachableFailuresPointAtTheirCause :
    (∃ t, Reachable t ∧ t.fail = some (.malformedProgram (.unmatchedClose 0))) ∧
    (∃ t, Reachable t ∧ t.fail = some (.inputExhausted 0)) ∧
    (∃ t, Reachable t ∧ t.fail = some (.outputFailure 0)) := by
  refine ⟨⟨start 2 [0x5D], reachable_start _, by decide⟩, ?_, ?_⟩
  · obtain ⟨t, h⟩ := exists_next_of_isSome (r := step (startFail 2 [0x2C])) (by decide)
    have hf : (nextOf (step (startFail 2 [0x2C]))).map State.fail = some (some (.inputExhausted 0)) := by decide
    refine ⟨t, .of_constructed (by decide) (leads_of_step h), ?_⟩
    rw [h] at hf
    exact Option.some.inj hf
  · have h := exists_next_of_isSome
      (r := step (constructed Config.default [0x2E] (.ofBytes []) { answers := [.reject], thereafter := none }))
      (by decide)
    obtain ⟨t, h⟩ := h
    have hf : (nextOf (step (constructed Config.default [0x2E] (.ofBytes [])
        { answers := [.reject], thereafter := none }))).map State.fail = some (some (.outputFailure 0)) := by decide
    refine ⟨t, .of_constructed (by decide) (leads_of_step h), ?_⟩
    rw [h] at hf
    exact Option.some.inj hf

theorem witness_RunStateFollowsFailAndIp :
    (start 2 [0x5D]).fail = some (.malformedProgram (.unmatchedClose 0)) ∧
    (start 2 []).fail = none ∧ (start 2 []).ip = (start 2 []).prog.length ∧
    (start 2 [0x2B]).fail = none ∧ (start 2 [0x2B]).ip < (start 2 [0x2B]).prog.length := by decide

theorem witness_PointersFitTheirWidths :
    (start 30000 [0x2B]).legal = true ∧ (start 30000 [0x2B]).dpWidth = 15 ∧ (start 1 []).dpWidth = 1 := by decide

theorem witness_StepKeepsLegal : ∃ t, step (start 2 [0x2B]) = .next t :=
  exists_next_of_isSome (by decide)

theorem witness_ReachableStatesKeepTheInvariants :
    Reachable (start 2 [0x2B]) ∧ (start 2 [0x2B]).fail = none ∧
    Reachable (start 2 [0x5D]) ∧ (start 2 [0x5D]).fail = some (.malformedProgram (.unmatchedClose 0)) :=
  ⟨reachable_start _, by decide, reachable_start _, by decide⟩

theorem witness_OutputCountsTheAcceptedWrites :
    construct { Config.default with n := 2 } [0x2E] (.ofBytes []) accepting = .next (start 2 [0x2E]) ∧
    (∃ t, core.run 1 (start 2 [0x2E]) = .next t) ∧ acceptedWrites 1 (start 2 [0x2E]) = 1 := by
  obtain ⟨t, h⟩ := exists_next_of_isSome (r := step (start 2 [0x2E])) (by decide)
  exact ⟨by simp [construct, start], ⟨t, (run_succ_of_next h 0).trans (run_zero t)⟩, by decide⟩

/-- R149: a byte after an `EOF` is admitted. -/
theorem test_input_byte_after_end :
    ({ answers := [.eof, .byte 7], thereafter := none } : Script InAnswer).request =
      some (.eof, { answers := [.byte 7], thereafter := none }) := by decide

theorem witness_PlacedWordIsRunNext : State.reset.legal = true := by decide

end Sys2Proof.Tests
end

