-- ==== Sys2Proof/Proofs/Widths.lean ====
section
/-! PROOFS. The register widths of R5: what `widthFor` is the least of, and that both pointers of a legal state fit. -/

namespace Sys2Proof.Machine

theorem one_le_widthFor (m : Nat) : 1 ≤ widthFor m := by
  unfold widthFor
  split <;> omega

/-- The widths that hold `m` are exactly those from `widthFor m` on. -/
theorem widthFor_le_iff {m w : Nat} (hw : 1 ≤ w) : widthFor m ≤ w ↔ m < 2 ^ w := by
  unfold widthFor
  split
  · next hm => simp [hm, hw]
  · next hm => exact Nat.log2_lt hm

theorem lt_two_pow_widthFor (m : Nat) : m < 2 ^ widthFor m :=
  (widthFor_le_iff (one_le_widthFor m)).mp le_rfl

/-- Settles O48: the widths are `widthFor` of `L` and of `N - 1`, and a legal state has `ip ≤ L` and `dp ≤ N - 1`. -/
theorem pointersFitTheirWidths : Obligations.PointersFitTheirWidths := by
  intro s hs
  obtain ⟨hip, hdp⟩ := pointersLegal_iff.mp (legal_iff.mp hs).1
  have hL : s.prog.length < 2 ^ s.ipWidth := lt_two_pow_widthFor _
  have hN : s.cfg.n - 1 < 2 ^ s.dpWidth := lt_two_pow_widthFor _
  refine ⟨⟨one_le_widthFor _, hL, fun w hw h => (widthFor_le_iff hw).mpr h⟩,
    ⟨one_le_widthFor _, by omega, fun w hw h => (widthFor_le_iff hw).mpr (by omega)⟩, by omega, by omega⟩

end Sys2Proof.Machine
end

