-- ==== Sys2Proof/Proofs/Resolver.lean ====
section
/-! PROOFS. One equation per class of symbol for the resolver's scan (R123). -/

namespace Sys2Proof.Machine

theorem resolveFrom_cons_open {c : Symbol} (h : decode c = .loopOpen) (cs : List Symbol) (i : Nat) (stack : List Nat)
    (t : JumpTable) : resolveFrom (c :: cs) i stack t = resolveFrom cs (i + 1) (i :: stack) t := by
  simp [resolveFrom, h]

theorem resolveFrom_cons_close {c : Symbol} (h : decode c = .loopClose) (cs : List Symbol) (i o : Nat)
    (below : List Nat) (t : JumpTable) :
    resolveFrom (c :: cs) i (o :: below) t = resolveFrom cs (i + 1) below ((i, o) :: (o, i) :: t) := by
  simp [resolveFrom, h]

/-- A symbol that is no bracket leaves the stack and the table as they are. -/
theorem resolveFrom_cons_other {c : Symbol} (ho : decode c ≠ .loopOpen) (hc : decode c ≠ .loopClose)
    (cs : List Symbol) (i : Nat) (stack : List Nat) (t : JumpTable) :
    resolveFrom (c :: cs) i stack t = resolveFrom cs (i + 1) stack t := by
  cases hd : decode c with
  | loopOpen => exact absurd hd ho
  | loopClose => exact absurd hd hc
  | right | left | inc | dec | output | input | nop => simp [resolveFrom, hd]

/-- The scan passes over NOPs of code 0x00. -/
theorem resolveFrom_replicate_zero (k : Nat) (cs : List Symbol) (i : Nat) (stack : List Nat) (t : JumpTable) :
    resolveFrom (List.replicate k 0 ++ cs) i stack t = resolveFrom cs (i + k) stack t := by
  induction k generalizing i with
  | zero => rfl
  | succ k ih =>
    rw [List.replicate_succ, List.cons_append, resolveFrom_cons_other (by decide) (by decide), ih, Nat.add_assoc,
      Nat.add_comm 1 k]

end Sys2Proof.Machine
end

