-- ==== Sys2Proof/Proofs/Loader.lean ====
section
/-! PROOFS. The host's load of one symbol (log entry 4): the program around it is well-formed and holds it at `ip`, so
a legal state with it loaded is ready, and the step runs what the symbol decodes to. -/

namespace Sys2Proof.Machine

/-- The three shapes of the program around a symbol: an open with its partner after it, a close with its partner before
it, any other symbol alone. -/
theorem programAround_cases (ip : Nat) (c : Symbol) :
    (decode c = .loopOpen ∧ programAround ip c = (List.replicate ip 0 ++ [c, codeClose], ip)) ∨
    (decode c = .loopClose ∧ programAround ip c = (List.replicate (ip - 1) 0 ++ [codeOpen, c], ip - 1 + 1)) ∨
    (decode c ≠ .loopOpen ∧ decode c ≠ .loopClose ∧ programAround ip c = (List.replicate ip 0 ++ [c], ip)) := by
  unfold programAround
  cases decode c <;> simp

theorem programAround_getElem? (ip : Nat) (c : Symbol) :
    (programAround ip c).1[(programAround ip c).2]? = some c := by
  obtain ⟨-, h⟩ | ⟨-, h⟩ | ⟨-, -, h⟩ := programAround_cases ip c <;> simp [h]

theorem programAround_wellFormed (ip : Nat) (c : Symbol) : ∃ t, resolve (programAround ip c).1 = .table t := by
  unfold resolve
  obtain ⟨ho, h⟩ | ⟨hc, h⟩ | ⟨ho, hc, h⟩ := programAround_cases ip c <;>
    simp only [h, resolveFrom_replicate_zero]
  · rw [resolveFrom_cons_open ho, resolveFrom_cons_close (by decide)]
    exact ⟨_, rfl⟩
  · rw [resolveFrom_cons_open (by decide), resolveFrom_cons_close hc]
    exact ⟨_, rfl⟩
  · rw [resolveFrom_cons_other ho hc]
    exact ⟨_, rfl⟩

theorem loadSymbol_getElem? (s : State) (c : Symbol) : (s.loadSymbol c).prog[(s.loadSymbol c).ip]? = some c :=
  programAround_getElem? s.ip c

/-- Loading a symbol makes a legal state ready, whatever run state it was in. -/
theorem loadSymbol_ready {s : State} (hs : s.legal = true) (c : Symbol) : Ready (s.loadSymbol c) := by
  obtain ⟨hp, htape, htraces, -⟩ := legal_iff.mp hs
  obtain ⟨t, ht⟩ := programAround_wellFormed s.ip c
  have hfail : (s.loadSymbol c).fail = none := by simp [State.loadSymbol, ht]
  have hjt : (s.loadSymbol c).jt = some t := by simp [State.loadSymbol, ht]
  have hip : (s.loadSymbol c).ip < (s.loadSymbol c).prog.length :=
    (List.getElem?_eq_some_iff.mp (loadSymbol_getElem? s c)).1
  exact ⟨legal_iff.mpr ⟨pointersLegal_iff.mpr ⟨hip.le, (pointersLegal_iff.mp hp).2⟩, htape, htraces,
    (tableLegal_of_no_failure hfail).mpr ⟨t, ht, hjt⟩⟩, isRunning_iff.mpr ⟨hfail, hip⟩⟩

/-- A running state's step is the rule of the symbol at `ip` (R92, R93). -/
theorem step_of_isRunning {s : State} {c : Symbol} (hr : s.isRunning = true) (hc : s.prog[s.ip]? = some c) :
    step s = exec (decode c) s := by
  simp [step, State.fetch, hr, hc]

theorem decodeTableWord_eq (nbits w : Nat) : decodeTableWord nbits w = some (decode (symbolOfWord nbits w)) := rfl

/-- Settles O51: the symbol stands at `ip` of a well-formed program, so the state is ready and its step runs it. -/
theorem placedWordIsRunNext : Obligations.PlacedWordIsRunNext := by
  intro s nbits w hs
  have hready : Ready (s.withFetchWord nbits w) := loadSymbol_ready hs (symbolOfWord nbits w)
  have hsym : (s.withFetchWord nbits w).prog[(s.withFetchWord nbits w).ip]? = some (symbolOfWord nbits w) :=
    loadSymbol_getElem? s (symbolOfWord nbits w)
  exact ⟨hready, by rw [decodeTableWord_eq, classAt, hsym, Option.map_some], _, decodeTableWord_eq nbits w,
    step_of_isRunning hready.2 hsym⟩

end Sys2Proof.Machine
end

