-- ==== Sys2Proof/Proofs/JumpTable.lean ====
section
/-! PROOFS. Where the Jump Table of a well-formed program has entries (R25, R122 (a)), and what they point at. -/

namespace Sys2Proof.Machine

/-- The symbol at position `p` is one of the two brackets. -/
def BracketAt (prog : List Symbol) (p : Nat) : Prop :=
  classAt prog p = some .loopOpen ∨ classAt prog p = some .loopClose

theorem bracketAt_cons_zero {c : Symbol} {cs : List Symbol} :
    BracketAt (c :: cs) 0 ↔ decode c = .loopOpen ∨ decode c = .loopClose := by
  simp [BracketAt, classAt]

theorem bracketAt_cons_succ {c : Symbol} {cs : List Symbol} {p : Nat} :
    BracketAt (c :: cs) (p + 1) ↔ BracketAt cs p := by
  simp [BracketAt, classAt]

theorem BracketAt.lt_length {prog : List Symbol} {p : Nat} (h : BracketAt prog p) : p < prog.length := by
  by_contra hp
  simp [BracketAt, classAt, List.getElem?_eq_none (not_lt.mp hp)] at h

/-- The brackets of a program whose first symbol stands at position `i`. -/
theorem bracketAt_cons_from {c : Symbol} {cs : List Symbol} {i p : Nat} :
    i ≤ p ∧ BracketAt (c :: cs) (p - i) ↔
      p = i ∧ (decode c = .loopOpen ∨ decode c = .loopClose) ∨ i + 1 ≤ p ∧ BracketAt cs (p - (i + 1)) := by
  rcases Nat.lt_trichotomy p i with h | rfl | h
  · simp [Nat.not_le.mpr h, Nat.not_le.mpr (Nat.lt_succ_of_lt h), h.ne]
  · simp [bracketAt_cons_zero]
  · obtain ⟨k, rfl⟩ := Nat.exists_eq_add_of_lt h
    have hk : i + k + 1 - i = k + 1 := by omega
    have hk' : i + k + 1 - (i + 1) = k := by omega
    simp [hk, hk', bracketAt_cons_succ, h.ne', h.le]

theorem resolveFrom_cons_close_empty {c : Symbol} (h : decode c = .loopClose) (cs : List Symbol) (i : Nat)
    (t : JumpTable) : resolveFrom (c :: cs) i [] t = .malformed (.unmatchedClose i) := by
  simp [resolveFrom, h]

/-- The induction along a scan that answers a table: it ends with no symbol left and an empty stack, and each symbol
pushes, pops or does neither. -/
theorem resolveFrom_table_induct {P : List Symbol → Nat → List Nat → JumpTable → Prop} {table : JumpTable}
    (done : ∀ i, P [] i [] table)
    (push : ∀ c cs i stack t, decode c = .loopOpen → P cs (i + 1) (i :: stack) t → P (c :: cs) i stack t)
    (pop : ∀ c cs i o below t, decode c = .loopClose → P cs (i + 1) below ((i, o) :: (o, i) :: t) →
      P (c :: cs) i (o :: below) t)
    (pass : ∀ c cs i stack t, decode c ≠ .loopOpen → decode c ≠ .loopClose → P cs (i + 1) stack t →
      P (c :: cs) i stack t)
    {cs : List Symbol} {i : Nat} {stack : List Nat} {t : JumpTable} (h : resolveFrom cs i stack t = .table table) :
    P cs i stack t := by
  induction cs generalizing i stack t with
  | nil =>
    cases stack with
    | nil => cases h; exact done i
    | cons o below => cases h
  | cons c cs ih =>
    by_cases ho : decode c = .loopOpen
    · exact push _ _ _ _ _ ho (ih (resolveFrom_cons_open ho .. ▸ h))
    by_cases hc : decode c = .loopClose
    · cases stack with
      | nil => rw [resolveFrom_cons_close_empty hc] at h; cases h
      | cons o below => exact pop _ _ _ _ _ _ hc (ih (resolveFrom_cons_close hc .. ▸ h))
    · exact pass _ _ _ _ _ ho hc (ih (resolveFrom_cons_other ho hc .. ▸ h))

@[simp] theorem entry_nil (p : Nat) : JumpTable.entry [] p = none := rfl

theorem entry_cons (a b : Nat) (t : JumpTable) (p : Nat) :
    JumpTable.entry ((a, b) :: t) p = if p = a then some b else t.entry p := rfl

theorem entry_cons_isSome {a b p : Nat} {t : JumpTable} :
    (JumpTable.entry ((a, b) :: t) p).isSome = true ↔ p = a ∨ (t.entry p).isSome = true := by
  rw [entry_cons]
  split <;> simp_all

/-- A scan of `cs` from position `i` is to answer an entry at `p`: the table `t` so far has one, `p` is an open on the
stack, or a bracket still to be scanned stands there. -/
def EntryDue (cs : List Symbol) (i : Nat) (stack : List Nat) (t : JumpTable) (p : Nat) : Prop :=
  (t.entry p).isSome = true ∨ p ∈ stack ∨ i ≤ p ∧ BracketAt cs (p - i)

theorem resolveFrom_entry_isSome {cs : List Symbol} {i : Nat} {stack : List Nat} {t table : JumpTable}
    (h : resolveFrom cs i stack t = .table table) (p : Nat) :
    (table.entry p).isSome = true ↔ EntryDue cs i stack t p := by
  refine resolveFrom_table_induct (P := fun cs i stack t => (table.entry p).isSome = true ↔ EntryDue cs i stack t p)
    ?done ?push ?pop ?pass h
  case done => intro i; simp [EntryDue, BracketAt, classAt]
  case push =>
    intro c cs i stack t ho ih
    rw [ih, EntryDue, EntryDue, bracketAt_cons_from, List.mem_cons]
    tauto
  case pop =>
    intro c cs i o below t hc ih
    rw [ih, EntryDue, EntryDue, bracketAt_cons_from, List.mem_cons, entry_cons_isSome, entry_cons_isSome]
    tauto
  case pass =>
    intro c cs i stack t ho hc ih
    rw [ih, EntryDue, EntryDue, bracketAt_cons_from]
    tauto

/-- Every entry points at a position that has an entry itself. -/
def EntriesClosed (t : JumpTable) : Prop :=
  ∀ p j, t.entry p = some j → (t.entry j).isSome = true

/-- Recording a pair keeps the entries closed. -/
theorem EntriesClosed.cons_pair {t : JumpTable} (h : EntriesClosed t) (i o : Nat) :
    EntriesClosed ((i, o) :: (o, i) :: t) := by
  intro p j hp
  rw [entry_cons_isSome, entry_cons_isSome]
  rw [entry_cons, entry_cons] at hp
  split at hp
  · exact .inr (.inl (Option.some.inj hp).symm)
  · split at hp
    · exact .inl (Option.some.inj hp).symm
    · exact .inr (.inr (h p j hp))

theorem resolveFrom_entriesClosed {cs : List Symbol} {i : Nat} {stack : List Nat} {t table : JumpTable}
    (h : resolveFrom cs i stack t = .table table) (ht : EntriesClosed t) : EntriesClosed table := by
  refine resolveFrom_table_induct (P := fun _ _ _ t => EntriesClosed t → EntriesClosed table)
    ?done ?push ?pop ?pass h ht
  case done => exact fun _ h => h
  case push => exact fun _ _ _ _ _ _ ih => ih
  case pop => exact fun _ _ i o _ _ _ ih ht => ih (ht.cons_pair i o)
  case pass => exact fun _ _ _ _ _ _ _ ih => ih

/-- R122 (a): the table has an entry exactly at the brackets. -/
theorem resolve_entry_isSome {prog : List Symbol} {table : JumpTable} (h : resolve prog = .table table) (p : Nat) :
    (table.entry p).isSome = true ↔ BracketAt prog p := by
  rw [resolveFrom_entry_isSome h, EntryDue]
  simp

/-- An entry is a bracket's position. -/
theorem resolve_entry_bracketAt {prog : List Symbol} {table : JumpTable} (h : resolve prog = .table table) {p j : Nat}
    (hp : table.entry p = some j) : BracketAt prog j :=
  (resolve_entry_isSome h j).mp (resolveFrom_entriesClosed h (fun _ _ h => by simp at h) p j hp)

/-- In a ready state the program is well-formed and the table its own. -/
theorem table_of_ready {s : State} (h : Ready s) : ∃ t, resolve s.prog = .table t ∧ s.jt = some t :=
  (tableLegal_of_no_failure (isRunning_iff.mp h.2).1).mp (legal_iff.mp h.1).2.2.2

theorem jumpEntry_isSome {s : State} (h : Ready s) : s.jumpEntry.isSome = true ↔ BracketAt s.prog s.ip := by
  obtain ⟨t, ht, hjt⟩ := table_of_ready h
  simp [State.jumpEntry, hjt, ← resolve_entry_isSome ht]

/-- A jump of a ready state stays within the program. -/
theorem jumpEntry_lt_length {s : State} (h : Ready s) {j : Nat} (hj : s.jumpEntry = some j) :
    j < s.prog.length := by
  obtain ⟨t, ht, hjt⟩ := table_of_ready h
  exact (resolve_entry_bracketAt ht (p := s.ip) (by simpa [State.jumpEntry, hjt] using hj)).lt_length

end Sys2Proof.Machine
end

