-- ==== Sys2Proof/Proofs/Guard.lean ====
section
/-! PROOFS. The guard of R36 and R91: outside a ready state no instruction and no step has an effect, and `noStep` says
why. -/

namespace Sys2Proof.Machine

theorem noStep_of_illegal {s : State} (h : s.legal = false) : noStep s = .refused .unreachableState := by
  simp [noStep, h]

theorem noStep_of_fail {s : State} (hl : s.legal = true) {f : Failure} (hf : s.fail = some f) :
    noStep s = .fault (.failed f) := by
  simp [noStep, hl, hf]

theorem whenRunning_of_not_ready {s : State} (h : ¬ Ready s) (effect : Result) : whenRunning s effect = noStep s := by
  have hg : (s.isRunning && s.legal) ≠ true := fun hg => h (Bool.and_eq_true_iff.mp hg).symm
  exact if_neg hg

/-- Every instruction rule runs under the guard. -/
theorem exec_guarded (i : Instr) (s : State) : ∃ effect, exec i s = whenRunning s effect := by
  cases i <;> exact ⟨_, rfl⟩

theorem exec_of_not_ready {s : State} (h : ¬ Ready s) (i : Instr) : exec i s = noStep s := by
  obtain ⟨effect, he⟩ := exec_guarded i s
  rw [he, whenRunning_of_not_ready h]

theorem step_of_not_ready {s : State} (h : ¬ Ready s) : step s = noStep s := by
  unfold step
  split
  · exact exec_of_not_ready h _
  · rfl

/-- Settles O12: an illegal state is not ready, and `noStep` refuses it. -/
theorem illegalStatesAreRefused : Obligations.IllegalStatesAreRefused := by
  intro s hs
  have hr : ¬ Ready s := fun h => absurd h.1 (by simp [hs])
  exact ⟨(step_of_not_ready hr).trans (noStep_of_illegal hs),
    fun i => (exec_of_not_ready hr i).trans (noStep_of_illegal hs)⟩

end Sys2Proof.Machine
end

