-- ==== Sys2Proof/Proofs/Status.lean ====
section
/-! PROOFS. The run state and the codes of R26 and R27; the answers of the two streams (R31, R149). -/

namespace Sys2Proof.Machine

theorem runState_of_fail {s : State} {f : Failure} (h : s.fail = some f) : s.runState = .failed f := by
  simp [State.runState, h]

theorem runState_at_end {s : State} (h : s.fail = none) (hip : s.ip = s.prog.length) : s.runState = .halted := by
  simp [State.runState, h, hip]

theorem runState_before_end {s : State} (h : s.fail = none) (hip : s.ip < s.prog.length) : s.runState = .running := by
  simp [State.runState, h, hip.ne]

theorem RunState.code_ne_three (r : RunState) : r.code ≠ 3 := by
  cases r <;> simp [RunState.code]

/-- Settles O47. -/
theorem runStateFollowsFailAndIp : Obligations.RunStateFollowsFailAndIp := fun s =>
  ⟨fun _ => runState_of_fail, runState_at_end, runState_before_end, rfl, rfl, fun _ => rfl,
    s.runState.code_ne_three, rfl, fun _ => rfl, fun _ => rfl, fun _ => rfl⟩

/-- Settles O39: each clause is one case of `Script.request`. -/
theorem streamsAnswerInOrder : Obligations.StreamsAnswerInOrder :=
  ⟨fun _ _ => rfl, rfl, fun _ => ⟨fun _ _ _ => rfl, fun _ => rfl, rfl⟩⟩

end Sys2Proof.Machine
end

