-- ==== Sys2Proof/Proofs/Construction.lean ====
section
/-! PROOFS. What a construction leaves (R37, R38, R190): a legal state, for every program. -/

namespace Sys2Proof.Machine

theorem tableLegal_of_table {s : State} {t : JumpTable} (h : resolve s.prog = .table t) :
    s.tableLegal = true ↔ s.jt = some t ∧ s.fail.any Failure.ofConstruction = false := by
  simp [State.tableLegal, h]

theorem tableLegal_of_malformed {s : State} {e : BracketError} (h : resolve s.prog = .malformed e) :
    s.tableLegal = true ↔ s.jt = none ∧ s.fail = some (.malformedProgram e) ∧ s.pristine = true := by
  simp [State.tableLegal, h, and_assoc]

section
variable {cfg : Config} {prog : List Symbol} {inp : Script InAnswer} {sink : Script OutAnswer}

theorem construct_of_pos (hn : 1 ≤ cfg.n) :
    construct cfg prog inp sink = .next (constructed cfg prog inp sink) :=
  if_neg (Nat.one_le_iff_ne_zero.mp hn)

theorem constructed_tableLegal : (constructed cfg prog inp sink).tableLegal = true := by
  cases h : resolve prog with
  | table t => exact (tableLegal_of_table h).mpr (by simp [constructed, h])
  | malformed e => exact (tableLegal_of_malformed h).mpr (by simp [constructed, h, State.pristine])

theorem constructed_legal (hn : cfg.n ≠ 0) : (constructed cfg prog inp sink).legal = true :=
  legal_iff.mpr ⟨pointersLegal_iff.mpr ⟨Nat.zero_le _, Nat.pos_of_ne_zero hn⟩, rfl, tracesLegal_iff.mpr rfl,
    constructed_tableLegal⟩

end

/-- Settles O9. -/
theorem constructionLeavesALegalState : Obligations.ConstructionLeavesALegalState := by
  intro cfg prog inp sink t h
  obtain ⟨hn, rfl⟩ := construct_next h
  exact constructed_legal hn

/-- Settles O7: the state is legal and its failure is the resolver's, so nothing runs from it. -/
theorem constructionOfAMalformedProgram : Obligations.ConstructionOfAMalformedProgram := by
  intro cfg prog inp sink e hn he
  have hfail : (constructed cfg prog inp sink).fail = some (.malformedProgram e) := by simp [constructed, he]
  have hjt : (constructed cfg prog inp sink).jt = none := by simp [constructed, he]
  have hno := noStep_of_fail (constructed_legal (inp := inp) (sink := sink) (prog := prog) (by omega)) hfail
  have hr : ¬ Ready (constructed cfg prog inp sink) := fun h => by
    simpa [hfail] using (isRunning_iff.mp h.2).1
  exact ⟨_, construct_of_pos hn, hfail, rfl, rfl, rfl, hjt, runState_of_fail hfail,
    (step_of_not_ready hr).trans hno, fun i => (exec_of_not_ready hr i).trans hno⟩

/-- Settles O6. -/
theorem constructionOfAWellFormedProgram : Obligations.ConstructionOfAWellFormedProgram := by
  intro cfg prog inp sink hn hwf
  obtain ⟨table, ht⟩ := programWellFormed_iff.mp hwf
  have hfail : (constructed cfg prog inp sink).fail = none := by simp [constructed, ht]
  have hjt : (constructed cfg prog inp sink).jt = some table := by simp [constructed, ht]
  exact ⟨_, table, construct_of_pos hn, ht, rfl, rfl, rfl, rfl, fun _ _ => rfl, hfail, hjt, rfl, rfl, rfl, rfl,
    runState_before_end hfail, fun h => runState_at_end hfail h.symm⟩

/-- Settles O5: the reset state is the construction's, so it is legal as every construction's is. -/
theorem resetStateIsLegal : Obligations.ResetStateIsLegal :=
  have h : construct Config.default [] (.ofBytes []) { answers := [], thereafter := some .accept } =
    .next State.reset := rfl
  ⟨constructionLeavesALegalState _ _ _ _ _ h, rfl, h⟩

end Sys2Proof.Machine
end

