-- ==== Sys2Proof/Proofs/StepEffect.lean ====
section
/-! PROOFS. What a step can do to each field of the state, read off once from the cases of `exec_next`. -/

namespace Sys2Proof.Machine

/-- The cell values the coming step appends to `outRaw` (R140): that of an accepted `.`, if it is one. -/
def emitted (s : State) : List Byte :=
  if acceptsWrite s then [s.cell] else []

theorem emitted_length (s : State) : (emitted s).length = if acceptsWrite s then 1 else 0 := by
  unfold emitted
  split <;> rfl

/-- What a step from `s` to `t` can do, field by field (R94, R95); the streams' scripts are left out. -/
structure StepEffect (s t : State) : Prop where
  construction : SameConstruction s t
  ip : t.ip = s.ip ∨ t.ip = s.ip + 1 ∨ ∃ j, s.jumpEntry = some j ∧ t.ip = j + 1
  dp : t.dp = s.dp ∨ t.dp = moveRight s.cfg.n s.dp ∨ t.dp = moveLeft s.cfg.n s.dp
  tape : t.tape = s.tape ∨ ∃ v, t.tape = s.tape.write s.dp v
  fail : t.fail = none ∨ t.fail = some (.outputFailure s.ip) ∨ t.fail = some (.inputExhausted s.ip)
  outRaw : t.outRaw = s.outRaw ++ emitted s
  out : t.out = s.out ++ (emitted s).map (fmt s.cfg.glyph)

theorem emitted_of_accept {s : State} {k : Script OutAnswer} (hc : classAt s.prog s.ip = some .output)
    (hk : s.sink.request = some (.accept, k)) : emitted s = [s.cell] :=
  if_pos (acceptsWrite_iff.mpr ⟨hc, k, hk⟩)

theorem emitted_of_reject {s : State} {k : Script OutAnswer} (hk : s.sink.request = some (.reject, k)) :
    emitted s = [] :=
  if_neg fun h => by
    obtain ⟨-, _, ha⟩ := acceptsWrite_iff.mp h
    simp [hk] at ha

theorem emitted_of_not_output {s : State} (hc : classAt s.prog s.ip ≠ some .output) : emitted s = [] :=
  if_neg fun h => hc (acceptsWrite_iff.mp h).1

/-- The input script is none of the fields a `StepEffect` speaks of. -/
theorem StepEffect.setInp {s t : State} (h : StepEffect s t) (k : Script InAnswer) : StepEffect s (t.setInp k) :=
  ⟨h.construction, h.ip, h.dp, h.tape, h.fail, h.outRaw, h.out⟩

/-! One lemma per shape of effect: a pointer move, a store, a move of `ip` alone, a failure, an emitted unit. -/

section
variable {s : State} (hfail : s.fail = none) (hsilent : emitted s = [])
include hsilent

theorem stepEffect_raise {f : Failure} (hf : f = .outputFailure s.ip ∨ f = .inputExhausted s.ip) :
    StepEffect s (s.raise f) where
  construction := ⟨rfl, rfl, rfl⟩
  ip := .inl rfl
  dp := .inl rfl
  tape := .inl rfl
  fail := .inr (by simpa using hf)
  outRaw := by simp [hsilent]
  out := by simp [hsilent]

include hfail

theorem stepEffect_move {d : Nat} (hd : d = moveRight s.cfg.n s.dp ∨ d = moveLeft s.cfg.n s.dp) :
    StepEffect s (s.setDp d).advance where
  construction := ⟨rfl, rfl, rfl⟩
  ip := .inr (.inl rfl)
  dp := .inr hd
  tape := .inl rfl
  fail := .inl hfail
  outRaw := by simp [hsilent]
  out := by simp [hsilent]

theorem stepEffect_store (v : Byte) : StepEffect s (s.setCell v).advance where
  construction := ⟨rfl, rfl, rfl⟩
  ip := .inr (.inl rfl)
  dp := .inl rfl
  tape := .inr ⟨v, rfl⟩
  fail := .inl hfail
  outRaw := by simp [hsilent]
  out := by simp [hsilent]

theorem stepEffect_setIp {p : Nat} (hp : p = s.ip + 1 ∨ ∃ j, s.jumpEntry = some j ∧ p = j + 1) :
    StepEffect s (s.setIp p) where
  construction := ⟨rfl, rfl, rfl⟩
  ip := .inr hp
  dp := .inl rfl
  tape := .inl rfl
  fail := .inl hfail
  outRaw := by simp [hsilent]
  out := by simp [hsilent]

theorem stepEffect_advance : StepEffect s s.advance :=
  stepEffect_setIp hfail hsilent (.inl rfl)

end

theorem stepEffect_emit {s : State} (hfail : s.fail = none) (hemit : emitted s = [s.cell]) (k : Script OutAnswer) :
    StepEffect s ((s.setSink k).emit (fmt s.cfg.glyph s.cell) s.cell).advance where
  construction := ⟨rfl, rfl, rfl⟩
  ip := .inr (.inl rfl)
  dp := .inl rfl
  tape := .inl rfl
  fail := .inl hfail
  outRaw := by simp [hemit]
  out := by simp [hemit]

/-- The one case analysis over the instructions: every next state is reached by one of the shapes above. -/
theorem step_effect {s t : State} (h : step s = .next t) : Ready s ∧ StepEffect s t := by
  obtain ⟨c, hc, he⟩ := step_next h
  obtain ⟨hr, he⟩ := exec_next he
  have hfail : s.fail = none := (isRunning_iff.mp hr.2).1
  have hclass : classAt s.prog s.ip = some (decode c) := by simp [classAt, hc]
  have silent : ∀ {i}, decode c = i → i ≠ .output → emitted s = [] := fun hd hi =>
    emitted_of_not_output (by simp [hclass, hd, hi])
  refine ⟨hr, ?_⟩
  obtain ⟨hd, rfl⟩ | ⟨hd, rfl⟩ | ⟨hd, rfl⟩ | ⟨hd, rfl⟩ | ⟨hd, -, rfl⟩ | ⟨hd, -, j, hj, rfl⟩ | ⟨hd, -, rfl⟩ |
    ⟨hd, -, j, hj, rfl⟩ | ⟨hd, ⟨k, hk⟩, rfl⟩ | ⟨hd, k, hk, rfl⟩ | ⟨hd, b, k, -, rfl⟩ | ⟨hd, -, k, -, rfl⟩ |
    ⟨hd, -, -, rfl⟩ | ⟨⟨d, hd⟩, rfl⟩ := he
  · exact stepEffect_move hfail (silent hd nofun) (.inl rfl)
  · exact stepEffect_move hfail (silent hd nofun) (.inr rfl)
  · exact stepEffect_store hfail (silent hd nofun) _
  · exact stepEffect_store hfail (silent hd nofun) _
  · exact stepEffect_advance hfail (silent hd nofun)
  · exact stepEffect_setIp hfail (silent hd nofun) (.inr ⟨j, hj, rfl⟩)
  · exact stepEffect_advance hfail (silent hd nofun)
  · exact stepEffect_setIp hfail (silent hd nofun) (.inr ⟨j, hj, rfl⟩)
  · exact stepEffect_raise (emitted_of_reject hk) (.inl rfl)
  · exact stepEffect_emit hfail (emitted_of_accept (by rw [hclass, hd]) hk) k
  · exact (stepEffect_store hfail (silent hd nofun) b).setInp k
  · exact (stepEffect_advance hfail (silent hd nofun)).setInp k
  · exact stepEffect_raise (silent hd nofun) (.inr rfl)
  · exact stepEffect_advance hfail (silent hd nofun)

/-- Settles O15. -/
theorem stepKeepsTheConstruction : Obligations.StepKeepsTheConstruction :=
  fun _ _ h => (step_effect h).2.construction

end Sys2Proof.Machine
end

