-- ==== Sys2Proof/Proofs/Invariants.lean ====
section
/-! PROOFS. The invariants of R35: every step keeps each part of legality, and so every reachable state has it. -/

namespace Sys2Proof.Machine

/-- A listed index is a cell of the tape, so every other index reads as unlisted. -/
theorem Memory.read_outside {n a : Nat} {m : Memory} (hm : within n m = true) (ha : n ≤ a) :
    read m a = unlisted := by
  induction m with
  | nil => rfl
  | cons c m ih =>
    obtain ⟨hc, hm⟩ : c.1 < n ∧ within n m = true := by simpa [within] using hm
    have hne : a ≠ c.1 := by omega
    simp only [read, hne, if_false]
    exact ih hm

section
variable {s t : State} (hr : Ready s) (h : StepEffect s t)
include hr h

theorem StepEffect.pointersLegal : t.pointersLegal = true := by
  obtain ⟨hcfg, hprog, -⟩ := h.construction
  obtain ⟨hip, hdp⟩ := pointersLegal_iff.mp (legal_iff.mp hr.1).1
  have hlt : s.ip < s.prog.length := (isRunning_iff.mp hr.2).2
  have hn : 0 < s.cfg.n := by omega
  rw [pointersLegal_iff, hcfg, hprog]
  constructor
  · obtain hi | hi | ⟨j, hj, hi⟩ := h.ip
    · omega
    · omega
    · have := jumpEntry_lt_length hr hj
      omega
  · obtain hd | hd | hd := h.dp
    · omega
    · exact hd ▸ Nat.mod_lt _ hn
    · exact hd ▸ Nat.mod_lt _ hn

theorem StepEffect.tapeLegal : t.tapeLegal = true := by
  obtain ⟨hp, htape, -, -⟩ := legal_iff.mp hr.1
  obtain ⟨hcfg, -, -⟩ := h.construction
  have same : ∀ u : State, u.tapeLegal = true → u.cfg = s.cfg → t.tape = u.tape → t.tapeLegal = true := by
    intro u hu hc ht
    rw [tapeLegal_iff] at hu ⊢
    rwa [ht, hcfg, ← hc]
  obtain ht | ⟨v, ht⟩ := h.tape
  · exact same s htape rfl ht
  · exact same _ (memWrite_tapeLegal htape (pointersLegal_iff.mp hp).2 v) rfl ht

theorem StepEffect.tracesLegal : t.tracesLegal = true := by
  have hs : s.out = s.outRaw.map (fmt s.cfg.glyph) := tracesLegal_iff.mp (legal_iff.mp hr.1).2.2.1
  rw [tracesLegal_iff, h.construction.1, h.out, h.outRaw, hs, List.map_append]

theorem StepEffect.tableLegal : t.tableLegal = true := by
  obtain ⟨table, hres, hjt⟩ := table_of_ready hr
  obtain ⟨-, hprog, htable⟩ := h.construction
  rw [tableLegal_of_table (t := table) (by rw [hprog, hres]), htable]
  refine ⟨hjt, ?_⟩
  obtain hf | hf | hf := h.fail <;> rw [hf] <;> rfl

theorem StepEffect.legal : t.legal = true :=
  legal_iff.mpr ⟨h.pointersLegal hr, h.tapeLegal hr, h.tracesLegal hr, h.tableLegal hr⟩

end

/-- Settles O49: a state with a next state is ready, and a step's effect on a ready state keeps each part of
legality. -/
theorem stepKeepsLegal : Obligations.StepKeepsLegal := by
  intro s t h
  obtain ⟨hr, he⟩ := step_effect h
  exact he.legal hr

/-- Every reachable state is legal. -/
theorem legal_of_reachable {t : State} (h : Reachable t) : t.legal = true := by
  obtain ⟨cfg, prog, inp, sink, s, hs, hl⟩ := h
  exact hl.induct (constructionLeavesALegalState _ _ _ _ _ hs) fun a b _ hab => stepKeepsLegal a b hab

/-- A legal state with a failure of construction has no table and no output. -/
theorem tableLegal_of_construction_failure {s : State} (h : s.tableLegal = true) {e : BracketError}
    (he : s.fail = some (.malformedProgram e)) : s.out = [] ∧ s.jt = none := by
  cases hres : resolve s.prog with
  | table t => simpa [he, Failure.ofConstruction] using (tableLegal_of_table hres).mp h
  | malformed e' =>
    obtain ⟨hjt, -, hpristine⟩ := (tableLegal_of_malformed hres).mp h
    simp only [State.pristine, Bool.and_eq_true, decide_eq_true_eq] at hpristine
    exact ⟨hpristine.1.2, hjt⟩

/-- Settles O50: each clause is a part of the legality of the reachable state. -/
theorem reachableStatesKeepTheInvariants : Obligations.ReachableStatesKeepTheInvariants := by
  intro t h
  obtain ⟨hpointers, htape, htraces, htable⟩ := legal_iff.mp (legal_of_reachable h)
  obtain ⟨hip, hdp⟩ := pointersLegal_iff.mp hpointers
  have hout := tracesLegal_iff.mp htraces
  exact ⟨hip, hdp, fun a ha => Memory.read_outside (tapeLegal_iff.mp htape).2 ha, hout,
    by rw [hout, List.length_map], fun e => tableLegal_of_construction_failure htable,
    fun hf => (tableLegal_of_no_failure hf).mp htable⟩

end Sys2Proof.Machine
end

