-- ==== Sys2Proof/Proofs/Traces.lean ====
section
/-! PROOFS. The two traces along a run (R30, R147): they grow at their end, in step, by one unit for each accepted
`.`. -/

namespace Sys2Proof.Machine

/-- The placeholder of `t` is that of `s`, and the traces of `t` go on from those of `s` in step. -/
def TracesExtend (s t : State) : Prop :=
  t.cfg = s.cfg ∧ ∃ vs, t.outRaw = s.outRaw ++ vs ∧ t.out = s.out ++ vs.map (fmt s.cfg.glyph)

theorem TracesExtend.refl (s : State) : TracesExtend s s :=
  ⟨rfl, [], by simp⟩

theorem TracesExtend.step {s a b : State} (h : TracesExtend s a) (hab : step a = .next b) : TracesExtend s b := by
  obtain ⟨hcfg, vs, hraw, hout⟩ := h
  obtain ⟨-, he⟩ := step_effect hab
  exact ⟨he.construction.1.trans hcfg, vs ++ emitted a, by simp [he.outRaw, hraw], by simp [he.out, hout, hcfg]⟩

/-- Settles O42. -/
theorem tracesGrowInOrder : Obligations.TracesGrowInOrder := fun s _ h =>
  (h.induct (TracesExtend.refl s) fun _ _ => TracesExtend.step).2

/-- Over a run both traces grow by the number of accepted writes. -/
theorem run_traces_length {s t : State} {k : Nat} (h : core.run k s = .next t) :
    t.out.length = s.out.length + acceptedWrites k s ∧ t.outRaw.length = s.outRaw.length + acceptedWrites k s := by
  induction k generalizing s with
  | zero => cases h; simp
  | succ k ih =>
    obtain ⟨u, hu, hk⟩ := run_succ_next h
    obtain ⟨-, he⟩ := step_effect hu
    obtain ⟨hout, hraw⟩ := ih hk
    rw [hout, hraw, he.out, he.outRaw, acceptedWrites_succ_of_next hu]
    simp [emitted_length, Nat.add_assoc]

/-- Settles O52: a construction's traces are empty. -/
theorem outputCountsTheAcceptedWrites : Obligations.OutputCountsTheAcceptedWrites := by
  intro cfg prog inp sink s t k hs hk
  obtain ⟨-, rfl⟩ := construct_next hs
  simpa [constructed] using run_traces_length hk

end Sys2Proof.Machine
end

