-- ==== Sys2Proof/Proofs/Enabled.lean ====
section
/-! PROOFS. When a ready state has a next state (R33), and what OPEN and CLOSE do where the table has no entry (R25). -/

namespace Sys2Proof.Machine

theorem jump_of_some {s : State} {j : Nat} (h : s.jumpEntry = some j) : jump s = .next (s.setIp (j + 1)) := by
  simp [jump, h]

theorem jump_of_none {s : State} (h : s.jumpEntry = none) : jump s = .refused .noJumpEntry := by
  simp [jump, h]

section
variable {s : State} (hr : Ready s)
include hr

theorem exec_loopOpen : exec .loopOpen s = if s.memRead s.dp = 0 then jump s else .next s.advance := by
  simp [exec, execLoopOpen, whenRunning_ready hr, State.cell]

theorem exec_loopClose : exec .loopClose s = if s.memRead s.dp = 0 then .next s.advance else jump s := by
  simp [exec, execLoopClose, whenRunning_ready hr, State.cell]

/-- Where the table has an entry, OPEN and CLOSE complete, whatever the cell holds. -/
theorem exec_loop_next_of_jumpEntry (hj : s.jumpEntry.isSome = true) :
    (∃ t, exec .loopOpen s = .next t) ∧ ∃ t, exec .loopClose s = .next t := by
  obtain ⟨j, hj⟩ := Option.isSome_iff_exists.mp hj
  rw [exec_loopOpen hr, exec_loopClose hr, jump_of_some hj]
  split <;> exact ⟨⟨_, rfl⟩, _, rfl⟩

theorem exec_output_next (h : s.sink.request ≠ none) : ∃ t, exec .output s = .next t := by
  obtain ⟨⟨answer, k⟩, hk⟩ := Option.ne_none_iff_exists'.mp h
  cases answer <;> exact ⟨_, by rw [exec, execOutput, whenRunning_ready hr, hk]⟩

theorem exec_output_waits (h : s.sink.request = none) : exec .output s = .fault .awaitingOutput := by
  rw [exec, execOutput, whenRunning_ready hr, h]

theorem exec_input_next (h : s.inp.request ≠ none) : ∃ t, exec .input s = .next t := by
  obtain ⟨⟨answer, k⟩, hk⟩ := Option.ne_none_iff_exists'.mp h
  rw [exec, execInput, whenRunning_ready hr, hk]
  cases answer with
  | byte b => exact ⟨_, rfl⟩
  | eof => cases s.cfg.eofPolicy <;> exact ⟨_, rfl⟩

theorem exec_input_waits (h : s.inp.request = none) : exec .input s = .fault .awaitingInput := by
  rw [exec, execInput, whenRunning_ready hr, h]

/-- Every other class completes at its own symbol. -/
theorem exec_next_of_no_stream {i : Instr} (hi : classAt s.prog s.ip = some i) (ho : i ≠ .output)
    (hin : i ≠ .input) : ∃ t, exec i s = .next t := by
  cases i with
  | right | left | inc | dec | nop => exact ⟨_, whenRunning_ready hr _⟩
  | loopOpen => exact (exec_loop_next_of_jumpEntry hr ((jumpEntry_isSome hr).mpr (.inl hi))).1
  | loopClose => exact (exec_loop_next_of_jumpEntry hr ((jumpEntry_isSome hr).mpr (.inr hi))).2
  | output => exact absurd rfl ho
  | input => exact absurd rfl hin

end

/-- Settles O13. -/
theorem onlyTheStreamsBlock : Obligations.OnlyTheStreamsBlock := by
  intro s c hr hc
  rw [step_of_isRunning hr.2 hc]
  refine ⟨exec_next_of_no_stream hr (by simp [classAt, hc]), fun hd h => ?_, fun hd h => ?_, fun hd h => ?_,
    fun hd h => ?_⟩ <;> rw [hd]
  · exact exec_output_next hr h
  · exact exec_output_waits hr h
  · exact exec_input_next hr h
  · exact exec_input_waits hr h

/-- Settles O35: off a bracket the table has no entry, so the jump is refused; the other branch only advances. -/
theorem jumpWithoutAnEntryIsRefused : Obligations.JumpWithoutAnEntryIsRefused := by
  intro s hr hopen hclose
  have hb : ¬ BracketAt s.prog s.ip := fun h => h.elim hopen hclose
  have hj : s.jumpEntry = none := Option.not_isSome_iff_eq_none.mp (mt (jumpEntry_isSome hr).mp hb)
  rw [exec_loopOpen hr, exec_loopClose hr, jump_of_none hj]
  exact ⟨rfl, rfl⟩

end Sys2Proof.Machine
end

