-- ==== Sys2Proof/Proofs/Cells.lean ====
section
/-! PROOFS. The tape as single cells (`20_memory.md` R58, R59). -/

namespace Sys2Proof.Machine

theorem memWrite_sameCellsBut (s : State) (a : Nat) (v : Byte) : SameCellsBut a s (s.memWrite a v) :=
  fun _ hb => memRead_memWrite_other s hb v

/-- Settles O21: the tape of a legal state is in canonical form, so the cell written reads back; the write replaces
the tape alone. -/
theorem cellWriteChangesOneCell : Obligations.CellWriteChangesOneCell := by
  intro s a v hs _
  obtain ⟨-, htape, -, -⟩ := legal_iff.mp hs
  exact ⟨memRead_memWrite_same htape a v, memWrite_sameCellsBut s a v, rfl, rfl, rfl, ⟨rfl, rfl, rfl⟩,
    ⟨rfl, rfl, rfl, rfl⟩⟩

end Sys2Proof.Machine
end

section
/-! PROOFS. The encoding (`30_encoding.md`): the decoder and the encoder are inverse to each other on the well-formed
instructions, and an ASCII program text is stored as its codes. -/

namespace Sys2Proof

/-- The ignore class of R75. -/
theorem decode_of_notMem_alphabet {c : Symbol} (h : c ∉ alphabet) : decode c = .nop c := by
  simp only [alphabet, List.mem_cons, List.not_mem_nil, or_false, not_or] at h
  obtain ⟨hright, hleft, hinc, hdec, hopen, hclose, hout, hin⟩ := h
  simp only [decode, hright, hleft, hinc, hdec, hopen, hclose, hout, hin, if_false]

theorem wellFormed_nop {c : Symbol} : (Instr.nop c).wellFormed = true ↔ c ∉ alphabet := by
  simp [Instr.wellFormed]

theorem wellFormed_decode (c : Symbol) : (decode c).wellFormed = true := by
  cases h : decode c with
  | nop code => exact Laws.DecodedWellFormed.nop code c h
  | right | left | inc | dec | loopOpen | loopClose | output | input => rfl

/-- Only a NOP needs the hypothesis: one that carries a code of the alphabet is decoded to that code's own class. -/
theorem decode_encode {i : Instr} (h : i.wellFormed = true) : decode (encode i) = i := by
  cases i with
  | nop code => exact decode_of_notMem_alphabet (wellFormed_nop.mp h)
  | right | left | inc | dec | loopOpen | loopClose | output | input => rfl

theorem encode_decode (c : Symbol) : encode (decode c) = c := by
  cases h : decode c with
  | right => exact (decode_eq_right.mp h).symm
  | left => exact (decode_eq_left.mp h).symm
  | inc => exact (decode_eq_inc.mp h).symm
  | dec => exact (decode_eq_dec.mp h).symm
  | loopOpen => exact (decode_eq_loopOpen.mp h).symm
  | loopClose => exact (decode_eq_loopClose.mp h).symm
  | output => exact (decode_eq_output.mp h).symm
  | input => exact (decode_eq_input.mp h).symm
  | nop code => exact code_of_decode_eq_nop h

theorem map_decode_encodeProgram {is : List Instr} (h : ∀ i ∈ is, i.wellFormed = true) :
    (encodeProgram is).map decode = is := by
  rw [encodeProgram, List.map_map]
  exact (List.map_congr_left fun i hi => decode_encode (h i hi)).trans (List.map_id is)

theorem encodeProgram_map_decode (prog : List Symbol) : encodeProgram (prog.map decode) = prog := by
  rw [encodeProgram, List.map_map]
  exact List.map_id'' encode_decode prog

theorem decodeSymbols_encodeProgram_cons {i : Instr} (h : i.wellFormed = true) (rest : List Instr) :
    decodeSymbols (encodeProgram (i :: rest)) = .ok (i, encodeProgram rest) := by
  rw [encodeProgram, List.map_cons, decodeSymbols, decode_encode h, encodeProgram]

/-- Settles O2: each instruction is one symbol, and that symbol decodes to it. -/
theorem decodeInvertsEncode : Obligations.DecodeInvertsEncode := by
  intro is h
  refine ⟨map_decode_encodeProgram h, List.length_map encode, ?_⟩
  rintro i rest rfl
  exact decodeSymbols_encodeProgram_cons (h i List.mem_cons_self) rest

/-- Settles O3: both halves hold symbol by symbol. -/
theorem encodeInvertsDecode : Obligations.EncodeInvertsDecode := fun prog =>
  ⟨List.forall_mem_map.mpr fun c _ => wellFormed_decode c, encodeProgram_map_decode prog⟩

/-- Settles O1: the codes listed are the alphabet. -/
theorem decodeFollowsTheSymbolTable : Obligations.DecodeFollowsTheSymbolTable :=
  ⟨decode_eq_right.mpr rfl, decode_eq_left.mpr rfl, decode_eq_inc.mpr rfl, decode_eq_dec.mpr rfl,
    decode_eq_loopOpen.mpr rfl, decode_eq_loopClose.mpr rfl, decode_eq_output.mpr rfl, decode_eq_input.mpr rfl,
    fun _ => decode_of_notMem_alphabet⟩

namespace Machine

/-- An ASCII character takes one Program Store entry, its code. -/
theorem utf8EncodeChar_of_ascii {c : Char} (h : c.toNat < 128) :
    (String.utf8EncodeChar c).map UInt8.toBitVec = [BitVec.ofNat 8 c.toNat] := by
  have hsize : c.utf8Size = 1 := Char.utf8Size_eq_one_iff.mpr (UInt32.le_iff_toNat_le.mpr (Nat.le_of_lt_succ h))
  rw [String.utf8EncodeChar_eq_singleton hsize]
  rfl

theorem assemble_of_ascii {text : List Char} (h : ∀ c ∈ text, c.toNat < 128) :
    assemble text = text.map fun c => BitVec.ofNat 8 c.toNat := by
  induction text with
  | nil => rfl
  | cons c cs ih =>
    obtain ⟨hc, hcs⟩ := List.forall_mem_cons.mp h
    rw [assemble, List.flatMap_cons, utf8EncodeChar_of_ascii hc, ← assemble, ih hcs, List.map_cons, List.singleton_append]

/-- Settles O4: the example's codes come from the general clause, its table from the scan. -/
theorem programTextIsStoredAsItsCodes : Obligations.ProgramTextIsStoredAsItsCodes :=
  ⟨fun _ => assemble_of_ascii, assemble_of_ascii (by simp), by decide, [(5, 0), (0, 5)], by decide, by decide,
    by decide⟩

end Machine

end Sys2Proof
end

section
/-! PROOFS. The dispatch (`40_dispatch.md`): a step runs the decoded instruction (R92, R93), terminal states have no
step (R91), and what each class may write (R94, R95). -/

namespace Sys2Proof.Machine

/-- Settles O10: a running state has `ip < L`, so there is a symbol to fetch. -/
theorem stepRunsTheDecodedInstruction : Obligations.StepRunsTheDecodedInstruction := by
  intro s hr
  have hc : s.prog[s.ip]? = some (s.prog[s.ip]'(isRunning_iff.mp hr.2).2) := List.getElem?_eq_getElem _
  exact ⟨_, hc, step_of_isRunning hr.2 hc⟩

theorem noStep_of_no_failure {s : State} (hl : s.legal = true) (hf : s.fail = none) : noStep s = .fault .halted := by
  simp [noStep, hl, hf]

theorem fail_of_runState_failed {s : State} {f : Failure} (h : s.runState = .failed f) : s.fail = some f := by
  unfold State.runState at h
  split at h
  · next hf => injection h with h; rw [hf, h]
  · split at h <;> cases h

theorem fail_of_runState_halted {s : State} (h : s.runState = .halted) : s.fail = none := by
  cases hf : s.fail with
  | none => rfl
  | some f => exact nomatch h.symm.trans (runState_of_fail hf)

theorem runState_of_ready {s : State} (h : Ready s) : s.runState = .running := by
  obtain ⟨hf, hip⟩ := isRunning_iff.mp h.2
  exact runState_before_end hf hip

/-- Outside `Running` the step and every instruction answer what `noStep` does. -/
theorem step_exec_of_not_running {s : State} {r : Result} (h : s.runState ≠ .running) (hr : noStep s = r) :
    step s = r ∧ ∀ i, exec i s = r := by
  have hn : ¬ Ready s := fun hs => h (runState_of_ready hs)
  exact ⟨(step_of_not_ready hn).trans hr, fun i => (exec_of_not_ready hn i).trans hr⟩

/-- Settles O11: outside `Running` only `noStep` answers, and the failure register decides its fault. -/
theorem terminalStatesHaveNoStep : Obligations.TerminalStatesHaveNoStep := by
  intro s hl
  refine ⟨fun hs => ?halted, fun f hs => ?failed, fun t h => runState_of_ready (step_effect h).1⟩
  case halted =>
    exact step_exec_of_not_running (by simp [hs]) (noStep_of_no_failure hl (fail_of_runState_halted hs))
  case failed =>
    exact step_exec_of_not_running (by simp [hs]) (noStep_of_fail hl (fail_of_runState_failed hs))

/-- The shapes a next state can have, each with the classes it belongs to (R94, R95); the values written are left
open. Only a plain advance belongs to no class in particular. -/
inductive ClassEffect (i : Instr) (s : State) : State → Prop
  | move (hi : i = .right ∨ i = .left) (d : Nat) : ClassEffect i s (s.setDp d).advance
  | store (hi : i = .inc ∨ i = .dec) (v : Byte) : ClassEffect i s (s.setCell v).advance
  | emit (hi : i = .output) (k : Script OutAnswer) (u v : Byte) : ClassEffect i s ((s.setSink k).emit u v).advance
  | readByte (hi : i = .input) (k : Script InAnswer) (b : Byte) : ClassEffect i s ((s.setInp k).setCell b).advance
  | readEof (hi : i = .input) (k : Script InAnswer) : ClassEffect i s (s.setInp k).advance
  | raise (hi : i = .output ∨ i = .input) (f : Failure) : ClassEffect i s (s.raise f)
  | jump (hi : i = .loopOpen ∨ i = .loopClose) (j : Nat) (hj : s.jumpEntry = some j) :
    ClassEffect i s (s.setIp (j + 1))
  | advance : ClassEffect i s s.advance

theorem exec_classEffect {i : Instr} {s t : State} (h : exec i s = .next t) : ClassEffect i s t := by
  obtain ⟨-, he⟩ := exec_next h
  obtain ⟨hi, rfl⟩ | ⟨hi, rfl⟩ | ⟨hi, rfl⟩ | ⟨hi, rfl⟩ | ⟨-, -, rfl⟩ | ⟨hi, -, j, hj, rfl⟩ | ⟨-, -, rfl⟩ |
    ⟨hi, -, j, hj, rfl⟩ | ⟨hi, -, rfl⟩ | ⟨hi, k, -, rfl⟩ | ⟨hi, b, k, -, rfl⟩ | ⟨hi, -, k, -, rfl⟩ |
    ⟨hi, -, -, rfl⟩ | ⟨-, rfl⟩ := he
  · exact .move (.inl hi) _
  · exact .move (.inr hi) _
  · exact .store (.inl hi) _
  · exact .store (.inr hi) _
  · exact .advance
  · exact .jump (.inl hi) j hj
  · exact .advance
  · exact .jump (.inr hi) j hj
  · exact .raise (.inl hi) _
  · exact .emit hi k _ _
  · exact .readByte hi k b
  · exact .readEof hi k
  · exact .raise (.inr hi) _
  · exact .advance

/-- The symbol at `ip` decides the class of a step's effect. -/
theorem step_classEffect {s t : State} {c : Symbol} (h : step s = .next t) (hc : s.prog[s.ip]? = some c) :
    ClassEffect (decode c) s t := by
  rw [step_of_isRunning (step_effect h).1.2 hc] at h
  exact exec_classEffect h

/-! What an effect leaves unchanged, field by field: the shapes that write the field are those of the classes left
out. -/

namespace ClassEffect

variable {i : Instr} {s t : State}

theorem dp_eq (h : ClassEffect i s t) (hright : i ≠ .right) (hleft : i ≠ .left) : t.dp = s.dp := by
  cases h with
  | move hi => exact (hi.elim hright hleft).elim
  | _ => rfl

theorem sameCells (h : ClassEffect i s t) (hinc : i ≠ .inc) (hdec : i ≠ .dec) (hin : i ≠ .input) :
    SameCells s t := by
  cases h with
  | store hi => exact (hi.elim hinc hdec).elim
  | readByte hi => exact absurd hi hin
  | _ => exact fun _ => rfl

theorem sameCellsBut_dp (h : ClassEffect i s t) : SameCellsBut s.dp s t := by
  cases h with
  | store _ v => exact memWrite_sameCellsBut s s.dp v
  | readByte _ _ b => exact memWrite_sameCellsBut s s.dp b
  | _ => exact fun _ _ => rfl

theorem outputs_eq (h : ClassEffect i s t) (hout : i ≠ .output) :
    t.out = s.out ∧ t.outRaw = s.outRaw ∧ t.sink = s.sink := by
  cases h with
  | emit hi => exact absurd hi hout
  | _ => exact ⟨rfl, rfl, rfl⟩

theorem inp_eq (h : ClassEffect i s t) (hin : i ≠ .input) : t.inp = s.inp := by
  cases h with
  | readByte hi => exact absurd hi hin
  | readEof hi => exact absurd hi hin
  | _ => rfl

theorem fail_eq (h : ClassEffect i s t) (hout : i ≠ .output) (hin : i ≠ .input) : t.fail = s.fail := by
  cases h with
  | raise hi => exact (hi.elim hout hin).elim
  | _ => rfl

/-- Without a failure an effect advances, or jumps under a bracket's class. -/
theorem ip_of_no_failure (h : ClassEffect i s t) (hf : t.fail = none) :
    t.ip = s.ip + 1 ∨ (i = .loopOpen ∨ i = .loopClose) ∧ ∃ j, s.jumpEntry = some j ∧ t.ip = j + 1 := by
  cases h with
  | raise => cases hf
  | jump hi j hj => exact .inr ⟨hi, j, hj, rfl⟩
  | _ => exact .inl rfl

theorem ip_of_new_failure (h : ClassEffect i s t) (hs : s.fail = none) (ht : t.fail ≠ none) : t.ip = s.ip := by
  cases h with
  | raise => rfl
  | _ => exact absurd hs ht

end ClassEffect

theorem fail_of_step {s t : State} (h : step s = .next t) : s.fail = none :=
  (isRunning_iff.mp (step_effect h).1.2).1

/-- Settles O14: each clause is the frame of one field; a state with a next state has no failure. -/
theorem stepWritesOnlyWhatItsClassMay : Obligations.StepWritesOnlyWhatItsClassMay := by
  intro s t c h hc
  have he := step_classEffect h hc
  exact ⟨he.dp_eq, he.sameCells, he.sameCellsBut_dp, he.outputs_eq, he.inp_eq,
    fun hout hin => (he.fail_eq hout hin).trans (fail_of_step h)⟩

/-- Settles O16: both targets are successors, so at least 1; the upper bound is the legality of the next state. -/
theorem stepAdvancesOrJumps : Obligations.StepAdvancesOrJumps := by
  intro s t c h hc
  have he := step_classEffect h hc
  refine ⟨fun hf => ?_, he.ip_of_new_failure (fail_of_step h)⟩
  have hip := he.ip_of_no_failure hf
  have hpos : 1 ≤ t.ip := by
    obtain hi | ⟨-, j, -, hi⟩ := hip <;> omega
  have hle : t.ip ≤ t.prog.length := (pointersLegal_iff.mp (legal_iff.mp (stepKeepsLegal s t h)).1).1
  rw [(stepKeepsTheConstruction s t h).2.1] at hle
  exact ⟨hpos, hle, hip⟩

end Sys2Proof.Machine
end

section
/-! PROOFS. The pointer unit and the pointer instructions (`41_pointer.md`): `move` is a ring of `N` cells, RIGHT and
LEFT turn it by 1 and by `N - 1`, and the turns of adjacent moves add up. -/

namespace Sys2Proof.Machine

/-! The unit (R100). -/

section
variable {n d : Nat} (h : d < n)
include h

theorem moveRight_lt : moveRight n d < n := Nat.mod_lt _ (Nat.zero_lt_of_lt h)

theorem moveLeft_lt : moveLeft n d < n := Nat.mod_lt _ (Nat.zero_lt_of_lt h)

theorem moveRight_eq_select : moveRight n d = if d = n - 1 then 0 else d + 1 := by
  unfold moveRight
  split
  · next hd => rw [show d + 1 = n by omega, Nat.mod_self]
  · exact Nat.mod_eq_of_lt (by omega)

theorem moveLeft_eq_select : moveLeft n d = if d = 0 then n - 1 else d - 1 := by
  unfold moveLeft
  split
  · next hd => rw [hd, Nat.zero_add, Nat.mod_eq_of_lt (by omega)]
  · rw [show d + n - 1 = d - 1 + n by omega, Nat.add_mod_right, Nat.mod_eq_of_lt (by omega)]

theorem moveLeft_moveRight : moveLeft n (moveRight n d) = d := by
  rw [moveLeft_eq_select (moveRight_lt h), moveRight_eq_select h]
  by_cases hd : d = n - 1
  · rw [if_pos hd, if_pos rfl, hd]
  · rw [if_neg hd, if_neg (Nat.succ_ne_zero d), Nat.add_sub_cancel]

theorem moveRight_moveLeft : moveRight n (moveLeft n d) = d := by
  rw [moveRight_eq_select (moveLeft_lt h), moveLeft_eq_select h]
  by_cases hd : d = 0
  · rw [if_pos hd, if_pos rfl, hd]
  · rw [if_neg hd, if_neg (by omega), Nat.sub_add_cancel (by omega)]

end

/-- Settles O17. -/
theorem pointerUnitIsARing : Obligations.PointerUnitIsARing := fun _ _ h =>
  ⟨rfl, moveRight_eq_select h, rfl, moveLeft_eq_select h, moveRight_lt h, moveLeft_lt h, moveLeft_moveRight h,
    moveRight_moveLeft h⟩

/-! The instructions (R101, R102). -/

theorem dp_lt_of_legal {s : State} (h : s.legal = true) : s.dp < s.cfg.n :=
  (pointersLegal_iff.mp (legal_iff.mp h).1).2

theorem exec_right {s : State} (h : Ready s) :
    exec .right s = .next { s with dp := moveRight s.cfg.n s.dp, ip := s.ip + 1 } :=
  whenRunning_ready h _

theorem exec_left {s : State} (h : Ready s) :
    exec .left s = .next { s with dp := moveLeft s.cfg.n s.dp, ip := s.ip + 1 } :=
  whenRunning_ready h _

/-- Settles O19: with `N = 1` the pointer is at `N - 1`, so the second corner case is the first. -/
theorem rightMovesUpTheRing : Obligations.RightMovesUpTheRing := by
  refine ⟨decode_eq_right.mpr rfl, fun s h => ?_⟩
  have hdp := dp_lt_of_legal h.1
  have htop : s.dp = s.cfg.n - 1 → moveRight s.cfg.n s.dp = 0 := fun hd => by
    rw [moveRight_eq_select hdp, if_pos hd]
  exact ⟨exec_right h, htop, fun hn => htop (by omega)⟩

/-- Settles O20: with `N = 1` the pointer is at 0, and the first corner case gives `N - 1 = 0`. -/
theorem leftMovesDownTheRing : Obligations.LeftMovesDownTheRing := by
  refine ⟨decode_eq_left.mpr rfl, fun s h => ?_⟩
  have hdp := dp_lt_of_legal h.1
  have hbottom : s.dp = 0 → moveLeft s.cfg.n s.dp = s.cfg.n - 1 := fun hd => by
    rw [moveLeft_eq_select hdp, if_pos hd]
  exact ⟨exec_left h, hbottom, fun hn => (hbottom (by omega)).trans (by omega)⟩

/-! Runs of adjacent moves (R103). A direction is `true` for `>` and `false` for `<`, as in the statement. -/

/-- The symbol of a direction. -/
def moveSymbol (up : Bool) : Symbol := if up then 0x3E else 0x3C

/-- How far up the ring of `n` cells a move turns the pointer. -/
def moveOffset (n : Nat) (up : Bool) : Nat := if up then 1 else n - 1

/-- How far up the ring a sequence of moves turns it. -/
def movesOffset (n : Nat) (moves : List Bool) : Nat := moves.count true + moves.count false * (n - 1)

theorem movesOffset_nil (n : Nat) : movesOffset n [] = 0 := by
  simp [movesOffset]

theorem movesOffset_cons (n : Nat) (up : Bool) (moves : List Bool) :
    movesOffset n (up :: moves) = moveOffset n up + movesOffset n moves := by
  cases up <;> simp [movesOffset, moveOffset] <;> ring

/-- The state with the pointer turned up the ring by `k` and `ip` moved on by `m`. -/
def State.turned (s : State) (k m : Nat) : State :=
  { s with dp := (s.dp + k) % s.cfg.n, ip := s.ip + m }

theorem State.turned_turned (s : State) (k m k' m' : Nat) :
    (s.turned k m).turned k' m' = s.turned (k + k') (m + m') := by
  simp [State.turned, Nat.add_assoc]

theorem State.turned_zero {s : State} (h : s.dp < s.cfg.n) : s.turned 0 0 = s := by
  simp [State.turned, Nat.mod_eq_of_lt h]

/-- The first of the symbols from `i` on stands at `i`, the others from `i + 1` on. -/
theorem getElem?_and_take_drop_of_cons {prog cs : List Symbol} {i n : Nat} {c : Symbol}
    (h : (prog.drop i).take (n + 1) = c :: cs) : prog[i]? = some c ∧ (prog.drop (i + 1)).take n = cs := by
  cases hd : prog.drop i with
  | nil => simp [hd] at h
  | cons d ds =>
    obtain ⟨rfl, hcs⟩ : d = c ∧ ds.take n = cs := by simpa [hd] using h
    exact ⟨by rw [← List.head?_drop, hd, List.head?_cons], by rw [← List.tail_drop, hd, List.tail_cons, hcs]⟩

/-- A legal state without a failure is ready where its program still holds a symbol. -/
theorem ready_of_getElem? {s : State} {c : Symbol} (hl : s.legal = true) (hf : s.fail = none)
    (hc : s.prog[s.ip]? = some c) : Ready s :=
  ⟨hl, isRunning_iff.mpr ⟨hf, (List.getElem?_eq_some_iff.mp hc).1⟩⟩

theorem step_move {s : State} {up : Bool} (h : Ready s) (hc : s.prog[s.ip]? = some (moveSymbol up)) :
    step s = .next (s.turned (moveOffset s.cfg.n up) 1) := by
  have hdp := dp_lt_of_legal h.1
  rw [step_of_isRunning h.2 hc]
  cases up with
  | true => exact exec_right h
  | false =>
    have hd : s.dp + s.cfg.n - 1 = s.dp + (s.cfg.n - 1) := by omega
    rw [show decode (moveSymbol false) = .left from decode_eq_left.mpr rfl, exec_left h, moveLeft, hd]
    rfl

theorem run_moves {s : State} {moves : List Bool} (hl : s.legal = true) (hf : s.fail = none)
    (h : (s.prog.drop s.ip).take moves.length = moves.map moveSymbol) :
    core.run moves.length s = .next (s.turned (movesOffset s.cfg.n moves) moves.length) := by
  induction moves generalizing s with
  | nil => rw [movesOffset_nil, List.length_nil, State.turned_zero (dp_lt_of_legal hl), run_zero]
  | cons up moves ih =>
    obtain ⟨hc, hrest⟩ := getElem?_and_take_drop_of_cons h
    have hs := step_move (ready_of_getElem? hl hf hc) hc
    calc core.run (moves.length + 1) s
      _ = core.run moves.length (s.turned (moveOffset s.cfg.n up) 1) := run_succ_of_next hs _
      _ = .next ((s.turned (moveOffset s.cfg.n up) 1).turned (movesOffset s.cfg.n moves) moves.length) :=
        ih (stepKeepsLegal _ _ hs) hf hrest
      _ = .next (s.turned (movesOffset s.cfg.n (up :: moves)) (moves.length + 1)) := by
        rw [State.turned_turned, movesOffset_cons, Nat.add_comm 1]

/-- Settles O18: a turn leaves every field but the pointers as it was (R104). -/
theorem pointerMovesAddUp : Obligations.PointerMovesAddUp := by
  intro s moves hl hf h
  rw [run_moves hl hf h, State.turned, movesOffset, Nat.add_assoc]

end Sys2Proof.Machine
end

section
/-! PROOFS. The cell unit and the cell arithmetic (`42_cell_arith.md`): the unit is addition of 1 and of 255 modulo
256, INC and DEC add that to the addressed cell and change nothing else but `ip`, and adjacent steps add up. -/

namespace Sys2Proof.Machine

/-! The unit (R110). -/

theorem inc8_toNat (v : Byte) : (inc8 v).toNat = (v.toNat + 1) % 256 := BitVec.toNat_add v 1

theorem dec8_toNat (v : Byte) : (dec8 v).toNat = (v.toNat + 255) % 256 := BitVec.toNat_add v 255

theorem inc8_eq_select (v : Byte) : inc8 v = if v = 255 then 0 else v + 1 := by
  split
  · next hv => subst hv; rfl
  · rfl

/-- Adding 255 is subtracting 1, since 255 is the negative of 1 in 8 bits. -/
theorem dec8_eq_sub_one (v : Byte) : dec8 v = v - 1 := (BitVec.sub_eq_add_neg v 1).symm

theorem dec8_eq_select (v : Byte) : dec8 v = if v = 0 then 255 else v - 1 := by
  split
  · next hv => subst hv; rfl
  · exact dec8_eq_sub_one v

theorem dec8_inc8 (v : Byte) : dec8 (inc8 v) = v := by
  rw [dec8_eq_sub_one, inc8, BitVec.add_sub_cancel]

theorem inc8_dec8 (v : Byte) : inc8 (dec8 v) = v := by
  rw [dec8_eq_sub_one, inc8, BitVec.sub_add_cancel]

/-- Settles O22. -/
theorem cellUnitWrapsAt256 : Obligations.CellUnitWrapsAt256 := fun v =>
  ⟨inc8_toNat v, inc8_eq_select v, dec8_toNat v, dec8_eq_select v, dec8_inc8 v, inc8_dec8 v⟩

/-! The frames of `Safety.lean` compose along a run. -/

section
variable {s t u : State}

theorem sameCellsBut_trans {p : Nat} (h : SameCellsBut p s t) (h' : SameCellsBut p t u) : SameCellsBut p s u :=
  fun a ha => (h' a ha).trans (h a ha)

theorem sameConstruction_trans (h : SameConstruction s t) (h' : SameConstruction t u) : SameConstruction s u := by
  obtain ⟨hcfg, hprog, hjt⟩ := h
  obtain ⟨hcfg', hprog', hjt'⟩ := h'
  exact ⟨hcfg'.trans hcfg, hprog'.trans hprog, hjt'.trans hjt⟩

theorem sameStreams_trans (h : SameStreams s t) (h' : SameStreams t u) : SameStreams s u := by
  obtain ⟨hout, hraw, hinp, hsink⟩ := h
  obtain ⟨hout', hraw', hinp', hsink'⟩ := h'
  exact ⟨hout'.trans hout, hraw'.trans hraw, hinp'.trans hinp, hsink'.trans hsink⟩

end

/-! The instructions (R111, R112). -/

/-- `t` is `s` with the addressed cell up by `k` modulo 256 and `ip` moved on by `m`; it has no failure, and all else
is unchanged. -/
def CellAdded (k m : Nat) (s t : State) : Prop :=
  (t.memRead s.dp).toNat = ((s.memRead s.dp).toNat + k) % 256 ∧ SameCellsBut s.dp s t ∧
  t.ip = s.ip + m ∧ t.dp = s.dp ∧ t.fail = none ∧ SameConstruction s t ∧ SameStreams s t

theorem CellAdded.refl {s : State} (hf : s.fail = none) : CellAdded 0 0 s s :=
  ⟨(Nat.mod_eq_of_lt (s.memRead s.dp).isLt).symm, fun _ _ => rfl, rfl, rfl, hf, ⟨rfl, rfl, rfl⟩,
    ⟨rfl, rfl, rfl, rfl⟩⟩

theorem CellAdded.trans {s t u : State} {k m k' m' : Nat} (h : CellAdded k m s t) (h' : CellAdded k' m' t u) :
    CellAdded (k + k') (m + m') s u := by
  obtain ⟨hcell, hbut, hip, hdp, -, hcon, hstr⟩ := h
  obtain ⟨hcell', hbut', hip', hdp', hfail', hcon', hstr'⟩ := h'
  rw [hdp] at hcell' hbut' hdp'
  refine ⟨?_, sameCellsBut_trans hbut hbut', by rw [hip', hip, Nat.add_assoc], hdp', hfail',
    sameConstruction_trans hcon hcon', sameStreams_trans hstr hstr'⟩
  rw [hcell', hcell, Nat.mod_add_mod, Nat.add_assoc]

/-- Storing the sum in the addressed cell and advancing adds to that cell: the tape of a ready state is canonical, so
the sum reads back. -/
theorem cellAdded_setCell_advance {s : State} (hr : Ready s) {v : Byte} {k : Nat}
    (hv : v.toNat = ((s.memRead s.dp).toNat + k) % 256) : CellAdded k 1 s (s.setCell v).advance := by
  obtain ⟨-, htape, -, -⟩ := legal_iff.mp hr.1
  have hread : (s.setCell v).advance.memRead s.dp = v := memRead_memWrite_same htape s.dp v
  exact ⟨by rw [hread, hv], memWrite_sameCellsBut s s.dp v, rfl, rfl, (isRunning_iff.mp hr.2).1, ⟨rfl, rfl, rfl⟩,
    ⟨rfl, rfl, rfl, rfl⟩⟩

theorem exec_inc_cellAdded {s : State} (hr : Ready s) : ∃ t, exec .inc s = .next t ∧ CellAdded 1 1 s t :=
  ⟨_, whenRunning_ready hr _, cellAdded_setCell_advance hr (inc8_toNat _)⟩

theorem exec_dec_cellAdded {s : State} (hr : Ready s) : ∃ t, exec .dec s = .next t ∧ CellAdded 255 1 s t :=
  ⟨_, whenRunning_ready hr _, cellAdded_setCell_advance hr (dec8_toNat _)⟩

/-- Settles O24. -/
theorem incAddsOneToTheCell : Obligations.IncAddsOneToTheCell :=
  ⟨decode_eq_inc.mpr rfl, fun _ => exec_inc_cellAdded⟩

/-- Settles O25. -/
theorem decSubtractsOneFromTheCell : Obligations.DecSubtractsOneFromTheCell :=
  ⟨decode_eq_dec.mpr rfl, fun _ => exec_dec_cellAdded⟩

/-! Runs of adjacent steps (R114). A direction is `true` for `+` and `false` for `-`, as in the statement. -/

/-- The symbol of a direction. -/
def cellSymbol (up : Bool) : Symbol := if up then 0x2B else 0x2D

/-- What a step adds to the cell, modulo 256. -/
def cellAddend (up : Bool) : Nat := if up then 1 else 255

/-- What a sequence of steps adds to it. -/
def cellSum (steps : List Bool) : Nat := steps.count true + 255 * steps.count false

theorem cellSum_cons (up : Bool) (steps : List Bool) : cellSum (up :: steps) = cellAddend up + cellSum steps := by
  cases up <;> simp [cellSum, cellAddend] <;> ring

theorem step_cellAdded {s : State} {up : Bool} (hr : Ready s) (hc : s.prog[s.ip]? = some (cellSymbol up)) :
    ∃ t, step s = .next t ∧ CellAdded (cellAddend up) 1 s t := by
  rw [step_of_isRunning hr.2 hc]
  cases up with
  | true => exact exec_inc_cellAdded hr
  | false => exact exec_dec_cellAdded hr

theorem run_cellAdded {s : State} {steps : List Bool} (hl : s.legal = true) (hf : s.fail = none)
    (h : (s.prog.drop s.ip).take steps.length = steps.map cellSymbol) :
    ∃ t, core.run steps.length s = .next t ∧ CellAdded (cellSum steps) steps.length s t := by
  induction steps generalizing s with
  | nil => exact ⟨s, run_zero s, CellAdded.refl hf⟩
  | cons up steps ih =>
    obtain ⟨hc, hrest⟩ := getElem?_and_take_drop_of_cons h
    obtain ⟨u, hu, hadd⟩ := step_cellAdded (ready_of_getElem? hl hf hc) hc
    have ⟨_, _, hip, _, hfail, ⟨_, hprog, _⟩, _⟩ := hadd
    obtain ⟨t, ht, hadd'⟩ := ih (stepKeepsLegal s u hu) hfail (by rw [hprog, hip, hrest])
    refine ⟨t, (run_succ_of_next hu _).trans ht, ?_⟩
    rw [cellSum_cons, List.length_cons, Nat.add_comm steps.length]
    exact hadd.trans hadd'

/-- Settles O23: the sum of the addends is the count of each direction times its addend. -/
theorem cellStepsAddUp : Obligations.CellStepsAddUp := by
  intro s steps hl hf h
  obtain ⟨t, ht, hcell, hframe⟩ := run_cellAdded hl hf h
  exact ⟨t, ht, by rw [hcell, cellSum, Nat.add_assoc], hframe⟩

end Sys2Proof.Machine
end

section
/-! PROOFS. The depth of R124 along a program: it starts at 0, and each symbol moves it by one up, by one down or not
at all; the depth of a part of a program is the depth gained since the part's start. -/

namespace Sys2Proof.Machine

variable {prog : List Symbol} {k : Nat}

theorem depth_zero (prog : List Symbol) : depth prog 0 = 0 := rfl

theorem depth_length (prog : List Symbol) : depth prog prog.length = opens prog - closes prog := by
  rw [depth, List.take_length]

/-- The depth adds up over a cut of the first `i + k` symbols. -/
theorem depth_add (prog : List Symbol) (i k : Nat) : depth prog (i + k) = depth prog i + depth (prog.drop i) k := by
  simp only [depth, List.take_add, opens, closes, List.countP_append]
  omega

/-- In a part of a program the depth is what the program's has gained since the part's start. -/
theorem depth_take_drop (i : Nat) {n : Nat} (h : k ≤ n) :
    depth ((prog.drop i).take n) k = depth prog (i + k) - depth prog i := by
  rw [depth_add, add_sub_cancel_left, depth, List.take_take, Nat.min_eq_left h, depth]

/-- One symbol moves the depth by what it counts for. -/
theorem depth_succ (prog : List Symbol) (k : Nat) :
    depth prog (k + 1) = depth prog k + (opens prog[k]?.toList - closes prog[k]?.toList) := by
  simp only [depth, List.take_add_one, opens, closes, List.countP_append]
  omega

theorem classAt_eq_some {i : Instr} : classAt prog k = some i ↔ ∃ c, prog[k]? = some c ∧ decode c = i := by
  simp [classAt]

theorem classAt_lt_length {i : Instr} (h : classAt prog k = some i) : k < prog.length := by
  obtain ⟨c, hc, -⟩ := classAt_eq_some.mp h
  exact (List.getElem?_eq_some_iff.mp hc).1

theorem depth_succ_open (h : classAt prog k = some .loopOpen) : depth prog (k + 1) = depth prog k + 1 := by
  obtain ⟨c, hc, hd⟩ := classAt_eq_some.mp h
  simp [depth_succ, hc, opens, closes, hd]

theorem depth_succ_close (h : classAt prog k = some .loopClose) : depth prog (k + 1) = depth prog k - 1 := by
  obtain ⟨c, hc, hd⟩ := classAt_eq_some.mp h
  simp [depth_succ, hc, opens, closes, hd, Int.sub_eq_add_neg]

theorem depth_succ_other (h : ¬ BracketAt prog k) : depth prog (k + 1) = depth prog k := by
  obtain ⟨ho, hc⟩ := not_or.mp h
  rw [depth_succ]
  cases hk : prog[k]? with
  | none => simp [opens, closes]
  | some c => simp_all [classAt, opens, closes]

/-- Where the program goes on with `c`, that is the symbol there, and the rest stands from the next position on. -/
theorem classAt_and_drop_of_cons {cs : List Symbol} {c : Symbol} (h : prog.drop k = c :: cs) :
    classAt prog k = some (decode c) ∧ prog.drop (k + 1) = cs :=
  ⟨by rw [classAt, ← List.head?_drop, h]; rfl, by rw [← List.tail_drop, h, List.tail_cons]⟩

end Sys2Proof.Machine
end

section
/-! PROOFS. Bracket pairs without the stack (R121): what the depth says of an open and the close that ends its level.
Every property of a pair in R122 is a fact about the depth. -/

namespace Sys2Proof.Machine

variable {prog : List Symbol}

/-- The open at `o` is not closed before position `k`: the depth has stayed above its level since. -/
structure OpenUntil (prog : List Symbol) (o k : Nat) : Prop where
  lt : o < k
  isOpen : classAt prog o = some .loopOpen
  above : ∀ m, o < m → m ≤ k → depth prog o < depth prog m

/-- The close at `c` ends the level of the open at `o` (R121). -/
structure BracketPair (prog : List Symbol) (o c : Nat) : Prop extends OpenUntil prog o c where
  isClose : classAt prog c = some .loopClose
  level : depth prog (c + 1) = depth prog o

theorem openUntil_succ {o : Nat} (h : classAt prog o = some .loopOpen) : OpenUntil prog o (o + 1) where
  lt := Nat.lt_succ_self o
  isOpen := h
  above m hm hmo := by
    have := depth_succ_open h
    obtain rfl : m = o + 1 := by omega
    omega

theorem OpenUntil.succ {o k : Nat} (h : OpenUntil prog o k) (hd : depth prog o < depth prog (k + 1)) :
    OpenUntil prog o (k + 1) where
  lt := Nat.lt_succ_of_lt h.lt
  isOpen := h.isOpen
  above m hm hmk := by
    obtain rfl | hmk := Nat.eq_or_lt_of_le hmk
    · exact hd
    · exact h.above m hm (Nat.le_of_lt_succ hmk)

/-- Two opens still open at one position are on different levels. -/
theorem OpenUntil.eq_of_level {o o' k : Nat} (h : OpenUntil prog o k) (h' : OpenUntil prog o' k)
    (hl : depth prog o = depth prog o') : o = o' := by
  rcases Nat.lt_trichotomy o o' with hlt | heq | hlt
  · exact absurd hl (h.above o' hlt h'.lt.le).ne
  · exact heq
  · exact absurd hl (h'.above o hlt h.lt.le).ne'

theorem bracketPair_succ {o : Nat} (ho : classAt prog o = some .loopOpen)
    (hc : classAt prog (o + 1) = some .loopClose) : BracketPair prog o (o + 1) where
  toOpenUntil := openUntil_succ ho
  isClose := hc
  level := by
    have := depth_succ_open ho
    have := depth_succ_close hc
    omega

namespace BracketPair

variable {o c o' c' : Nat}

theorem close_unique (h : BracketPair prog o c) (h' : BracketPair prog o c') : c = c' := by
  rcases Nat.lt_trichotomy c c' with hlt | heq | hlt
  · have := h'.above (c + 1) (Nat.lt_succ_of_lt h.lt) hlt
    have := h.level
    omega
  · exact heq
  · have := h.above (c' + 1) (Nat.lt_succ_of_lt h'.lt) hlt
    have := h'.level
    omega

theorem open_unique (h : BracketPair prog o c) (h' : BracketPair prog o' c) : o = o' :=
  h.toOpenUntil.eq_of_level h'.toOpenUntil (h.level.symm.trans h'.level)

/-- Of two pairs the first to open closes before the second opens or after it closes (R122 (d)). -/
theorem nest (h : BracketPair prog o c) (h' : BracketPair prog o' c') (ho : o < o') : c < o' ∨ c' < c := by
  by_contra hcross
  obtain ⟨hoc, hcc⟩ : o' ≤ c ∧ c ≤ c' := by omega
  have hlevel : depth prog o < depth prog o' := h.above o' ho hoc
  have hne : c ≠ o' := by
    rintro rfl
    simpa [h.isClose] using h'.isOpen
  obtain rfl | hlt := Nat.eq_or_lt_of_le hcc
  · exact ho.ne (h.open_unique h')
  · have := h'.above (c + 1) (by omega) hlt
    have := h.level
    omega

end BracketPair

end Sys2Proof.Machine
end

section
/-! PROOFS. The resolver's scan (R123) in terms of the depth: what the stack and the table hold at each position, and
what each outcome says. -/

namespace Sys2Proof.Machine

variable {prog : List Symbol}

/-- The stack at position `k`, top first: opens not closed yet, each at the depth of the number of opens below it. -/
def Pending (prog : List Symbol) (k : Nat) : List Nat → Prop
  | [] => True
  | o :: below => OpenUntil prog o k ∧ depth prog o = below.length ∧ Pending prog k below

/-- A stack survives a symbol that does not close its top. -/
theorem Pending.succ {k : Nat} {stack : List Nat} (h : Pending prog k stack)
    (hd : (stack.length : Int) ≤ depth prog (k + 1)) : Pending prog (k + 1) stack := by
  induction stack with
  | nil => trivial
  | cons o below ih =>
    obtain ⟨ho, hlevel, hbelow⟩ := h
    rw [List.length_cons, Nat.cast_succ] at hd
    exact ⟨ho.succ (by omega), hlevel, ih hbelow (by omega)⟩

/-- Every entry is one of the two directions of a pair. -/
def EntriesPaired (prog : List Symbol) (t : JumpTable) : Prop :=
  ∀ p j, t.entry p = some j → BracketPair prog p j ∨ BracketPair prog j p

theorem EntriesPaired.cons_pair {t : JumpTable} {o c : Nat} (h : EntriesPaired prog t) (hp : BracketPair prog o c) :
    EntriesPaired prog ((c, o) :: (o, c) :: t) := by
  intro p j hj
  rw [entry_cons, entry_cons] at hj
  split at hj
  · next hpc => obtain rfl := Option.some.inj hj; exact .inr (hpc ▸ hp)
  · split at hj
    · next hpo => obtain rfl := Option.some.inj hj; exact .inl (hpo ▸ hp)
    · exact h p j hj

/-- What holds when the scan comes to position `i` with this stack and this table. -/
structure ScanState (prog : List Symbol) (i : Nat) (stack : List Nat) (t : JumpTable) : Prop where
  le_length : i ≤ prog.length
  nonneg : ∀ k, k ≤ i → 0 ≤ depth prog k
  depth_eq : depth prog i = stack.length
  pending : Pending prog i stack
  paired : EntriesPaired prog t

theorem scanState_zero (prog : List Symbol) : ScanState prog 0 [] [] where
  le_length := Nat.zero_le _
  nonneg k hk := by rw [Nat.le_zero.mp hk, depth_zero]
  depth_eq := depth_zero prog
  pending := trivial
  paired _ _ h := nomatch h

namespace ScanState

variable {i o : Nat} {stack below : List Nat} {t : JumpTable}

/-- Going on by one symbol, with the stack and the table the scan then has. -/
theorem succ {stack' : List Nat} {t' : JumpTable} (h : ScanState prog i stack t) (hi : i < prog.length)
    (hd : depth prog (i + 1) = stack'.length) (hp : Pending prog (i + 1) stack') (ht : EntriesPaired prog t') :
    ScanState prog (i + 1) stack' t' where
  le_length := hi
  nonneg k hk := by
    obtain rfl | hk := Nat.eq_or_lt_of_le hk
    · omega
    · exact h.nonneg k (Nat.le_of_lt_succ hk)
  depth_eq := hd
  pending := hp
  paired := ht

theorem push (h : ScanState prog i stack t) (ho : classAt prog i = some .loopOpen) :
    ScanState prog (i + 1) (i :: stack) t := by
  have hi := h.depth_eq
  have hd := depth_succ_open ho
  exact h.succ (classAt_lt_length ho) (by simp [hd, hi]) ⟨openUntil_succ ho, hi, h.pending.succ (by omega)⟩ h.paired

theorem pop (h : ScanState prog i (o :: below) t) (hc : classAt prog i = some .loopClose) :
    ScanState prog (i + 1) below ((i, o) :: (o, i) :: t) := by
  have hi := h.depth_eq
  rw [List.length_cons, Nat.cast_succ] at hi
  obtain ⟨ho, hlevel, hbelow⟩ := h.pending
  have hd : depth prog (i + 1) = below.length := by rw [depth_succ_close hc, hi, Int.add_sub_cancel]
  exact h.succ (classAt_lt_length hc) hd (hbelow.succ hd.ge) (h.paired.cons_pair ⟨ho, hc, hd.trans hlevel.symm⟩)

theorem pass (h : ScanState prog i stack t) (hi : i < prog.length) (hb : ¬ BracketAt prog i) :
    ScanState prog (i + 1) stack t := by
  have hd : depth prog (i + 1) = stack.length := (depth_succ_other hb).trans h.depth_eq
  exact h.succ hi hd (h.pending.succ hd.ge) h.paired

end ScanState

/-- The three ways a scan ends, with what holds there. -/
inductive ScanEnd (prog : List Symbol) : Resolution → Prop
  | table {t : JumpTable} (h : ScanState prog prog.length [] t) : ScanEnd prog (.table t)
  | unmatchedClose {t : JumpTable} {p : Nat} (h : ScanState prog p [] t) (hc : classAt prog p = some .loopClose) :
    ScanEnd prog (.malformed (.unmatchedClose p))
  | unmatchedOpen {t : JumpTable} {o : Nat} {below : List Nat} (h : ScanState prog prog.length (o :: below) t) :
    ScanEnd prog (.malformed (.unmatchedOpen o))

theorem scanEnd_resolveFrom {cs : List Symbol} {i : Nat} {stack : List Nat} {t : JumpTable}
    (hcs : prog.drop i = cs) (h : ScanState prog i stack t) : ScanEnd prog (resolveFrom cs i stack t) := by
  induction cs generalizing i stack t with
  | nil =>
    obtain rfl : i = prog.length := Nat.le_antisymm h.le_length (List.drop_eq_nil_iff.mp hcs)
    cases stack with
    | nil => exact .table h
    | cons o below => exact .unmatchedOpen h
  | cons c cs ih =>
    obtain ⟨hc, hrest⟩ := classAt_and_drop_of_cons hcs
    by_cases ho : decode c = .loopOpen
    · rw [resolveFrom_cons_open ho]
      exact ih hrest (h.push (ho ▸ hc))
    by_cases hcl : decode c = .loopClose
    · rw [hcl] at hc
      cases stack with
      | nil => rw [resolveFrom_cons_close_empty hcl]; exact .unmatchedClose h hc
      | cons o below => rw [resolveFrom_cons_close hcl]; exact ih hrest (h.pop hc)
    · rw [resolveFrom_cons_other ho hcl]
      exact ih hrest (h.pass (classAt_lt_length hc) (by simp [BracketAt, hc, ho, hcl]))

theorem scanEnd_resolve (prog : List Symbol) : ScanEnd prog (resolve prog) :=
  scanEnd_resolveFrom rfl (scanState_zero prog)

theorem scanState_of_table {t : JumpTable} (h : resolve prog = .table t) : ScanState prog prog.length [] t := by
  cases h ▸ scanEnd_resolve prog with
  | table hs => exact hs

/-- A close at depth zero takes the depth below zero, so the depth can be non-negative up to its position only. -/
theorem le_of_close_at_zero {p q : Nat} (hc : classAt prog p = some .loopClose) (hp : depth prog p = 0)
    (h : ∀ k, k ≤ q → 0 ≤ depth prog k) : q ≤ p := by
  by_contra hlt
  have := depth_succ_close hc
  have := h (p + 1) (Nat.lt_of_not_le hlt)
  omega

/-- A depth that is never negative meets no close at depth zero. -/
theorem not_close_at_zero {p : Nat} (h : ∀ k, k ≤ prog.length → 0 ≤ depth prog k)
    (hc : classAt prog p = some .loopClose) : depth prog p ≠ 0 :=
  fun hp => (classAt_lt_length hc).not_ge (le_of_close_at_zero hc hp h)

/-- Settles O29: the depth at the end is the height of the stack, and an unmatched close takes it below zero. -/
theorem wellFormedMeansBalancedDepth : Obligations.WellFormedMeansBalancedDepth := by
  intro prog
  rw [programWellFormed_iff]
  have hend := scanEnd_resolve prog
  generalize resolve prog = r at hend ⊢
  cases hend with
  | table hs => exact iff_of_true ⟨_, rfl⟩ ⟨hs.nonneg, hs.depth_eq⟩
  | unmatchedClose hs hc =>
    exact iff_of_false nofun fun ⟨hnonneg, _⟩ => not_close_at_zero hnonneg hc hs.depth_eq
  | unmatchedOpen hs =>
    refine iff_of_false nofun fun ⟨_, hzero⟩ => ?_
    have := hs.depth_eq
    rw [List.length_cons] at this
    omega

/-- R125: the close reported is the first that the depth meets at zero, since it takes the depth below zero. -/
theorem resolve_eq_unmatchedClose_iff {p : Nat} :
    resolve prog = .malformed (.unmatchedClose p) ↔
      classAt prog p = some .loopClose ∧ depth prog p = 0 ∧ ∀ k, k ≤ p → 0 ≤ depth prog k := by
  have hend := scanEnd_resolve prog
  generalize resolve prog = r at hend ⊢
  cases hend with
  | table hs => exact iff_of_false nofun fun ⟨hc, hp, _⟩ => not_close_at_zero hs.nonneg hc hp
  | @unmatchedClose _ q hs hq =>
    constructor
    · rintro ⟨⟩
      exact ⟨hq, hs.depth_eq, hs.nonneg⟩
    · rintro ⟨hc, hp, hnonneg⟩
      rw [Nat.le_antisymm (le_of_close_at_zero hc hp hs.nonneg) (le_of_close_at_zero hq hs.depth_eq hnonneg)]
  | unmatchedOpen hs => exact iff_of_false nofun fun ⟨hc, hp, _⟩ => not_close_at_zero hs.nonneg hc hp

/-- R125: the open reported is the one still open at the end on the level just below the end's. -/
theorem resolve_eq_unmatchedOpen_iff {p : Nat} :
    resolve prog = .malformed (.unmatchedOpen p) ↔
      (∀ k, k ≤ prog.length → 0 ≤ depth prog k) ∧ OpenUntil prog p prog.length ∧
        depth prog p + 1 = depth prog prog.length := by
  have hend := scanEnd_resolve prog
  generalize resolve prog = r at hend ⊢
  cases hend with
  | table hs =>
    refine iff_of_false nofun fun ⟨hnonneg, hp, hlevel⟩ => ?_
    have := hnonneg p hp.lt.le
    have : depth prog prog.length = 0 := hs.depth_eq
    omega
  | unmatchedClose hs hc =>
    exact iff_of_false nofun fun ⟨hnonneg, _⟩ => not_close_at_zero hnonneg hc hs.depth_eq
  | @unmatchedOpen _ o below hs =>
    obtain ⟨ho, hlevel, -⟩ := hs.pending
    have htop : depth prog o + 1 = depth prog prog.length := by
      rw [hs.depth_eq, hlevel, List.length_cons, Nat.cast_succ]
    constructor
    · rintro ⟨⟩
      exact ⟨hs.nonneg, ho, htop⟩
    · rintro ⟨-, hp, hlevel⟩
      rw [hp.eq_of_level ho (by omega)]

/-- Settles O30: an open that is still open at the end stands before it, at a position with a symbol. -/
theorem resolverReportsTheFirstError : Obligations.ResolverReportsTheFirstError := by
  refine fun prog p => ⟨resolve_eq_unmatchedClose_iff, resolve_eq_unmatchedOpen_iff.trans ?_⟩
  constructor
  · rintro ⟨hnonneg, hp, hlevel⟩
    exact ⟨hnonneg, hp.isOpen, hlevel, hp.above⟩
  · rintro ⟨hnonneg, ho, hlevel, habove⟩
    exact ⟨hnonneg, ⟨classAt_lt_length ho, ho, habove⟩, hlevel⟩

end Sys2Proof.Machine
end

section
/-! PROOFS. The Jump Table of a well-formed program holds its bracket pairs (R121, R122), and the scan engine of R126
finds them. -/

namespace Sys2Proof.Machine

variable {prog : List Symbol}

section
variable {table : JumpTable} (ht : resolve prog = .table table)
include ht

theorem table_entry_of_open {i : Nat} (ho : classAt prog i = some .loopOpen) :
    ∃ j, table.entry i = some j ∧ BracketPair prog i j := by
  obtain ⟨j, hj⟩ := Option.isSome_iff_exists.mp ((resolve_entry_isSome ht i).mpr (.inl ho))
  obtain hp | hp := (scanState_of_table ht).paired i j hj
  · exact ⟨j, hj, hp⟩
  · exact absurd hp.isClose (by simp [ho])

theorem table_entry_of_close {j : Nat} (hc : classAt prog j = some .loopClose) :
    ∃ i, table.entry j = some i ∧ BracketPair prog i j := by
  obtain ⟨i, hi⟩ := Option.isSome_iff_exists.mp ((resolve_entry_isSome ht j).mpr (.inr hc))
  obtain hp | hp := (scanState_of_table ht).paired j i hi
  · exact absurd hp.isOpen (by simp [hc])
  · exact ⟨i, hi, hp⟩

/-- A pair is recorded in both directions. -/
theorem table_entries_of_pair {i j : Nat} (h : BracketPair prog i j) :
    table.entry i = some j ∧ table.entry j = some i := by
  obtain ⟨j', hj, hp⟩ := table_entry_of_open ht h.isOpen
  obtain ⟨i', hi, hp'⟩ := table_entry_of_close ht h.isClose
  exact ⟨by rw [hj, hp.close_unique h], by rw [hi, hp'.open_unique h]⟩

theorem bracketPair_of_open {i j : Nat} (ho : classAt prog i = some .loopOpen) (hj : table.entry i = some j) :
    BracketPair prog i j := by
  obtain ⟨j', hj', hp⟩ := table_entry_of_open ht ho
  exact Option.some.inj (hj'.symm.trans hj) ▸ hp

theorem bracketPair_of_close {i j : Nat} (hc : classAt prog j = some .loopClose) (hi : table.entry j = some i) :
    BracketPair prog i j := by
  obtain ⟨i', hi', hp⟩ := table_entry_of_close ht hc
  exact Option.some.inj (hi'.symm.trans hi) ▸ hp

end

/-- Settles O26. -/
theorem jumpTablePairsTheBrackets : Obligations.JumpTablePairsTheBrackets := by
  intro prog table ht
  refine ⟨resolve_entry_isSome ht, fun i ho => ?_, fun j hc => ?_⟩
  · obtain ⟨j, -, hp⟩ := table_entry_of_open ht ho
    exact ⟨j, hp.lt, hp.isClose, table_entries_of_pair ht hp⟩
  · obtain ⟨i, -, hp⟩ := table_entry_of_close ht hc
    exact ⟨i, hp.lt, hp.isOpen, (table_entries_of_pair ht hp).symm⟩

/-- R122 (e): between an open and its close the depth stays above the open's level and comes back to just above it. -/
theorem BracketPair.inside_wellFormed {i j : Nat} (h : BracketPair prog i j) :
    programWellFormed ((prog.drop (i + 1)).take (j - (i + 1))) = true := by
  have hopen := depth_succ_open h.isOpen
  have hclose := depth_succ_close h.isClose
  have hlength : ((prog.drop (i + 1)).take (j - (i + 1))).length = j - (i + 1) := by
    have := classAt_lt_length h.isClose
    rw [List.length_take, List.length_drop]
    omega
  rw [wellFormedMeansBalancedDepth, hlength]
  refine ⟨fun k hk => ?_, ?_⟩
  · have := h.above (i + 1 + k) (by omega) (by have := h.lt; omega)
    rw [depth_take_drop _ hk]
    omega
  · have := h.level
    rw [depth_take_drop _ le_rfl, Nat.add_sub_cancel' h.lt]
    omega

/-- Settles O27: the entries of opens are pairs, and the depth at the end is 0. -/
theorem jumpTablePairsNest : Obligations.JumpTablePairsNest := by
  intro prog table ht
  refine ⟨fun i i' j j' hi hi' hj hj' hlt => ?_, fun i j hi hj => ?_, ?_⟩
  · exact (bracketPair_of_open ht hi hj).nest (bracketPair_of_open ht hi' hj') hlt
  · exact (bracketPair_of_open ht hi hj).inside_wellFormed
  · have := (scanState_of_table ht).depth_eq
    rw [depth_length, List.length_nil] at this
    omega

/-- Settles O28: strictly inside a pair the depth is above the level at which the pair opens and closes. -/
theorem jumpTableEntriesAreTheNearestBalanced : Obligations.JumpTableEntriesAreTheNearestBalanced := by
  intro prog table i j ht hj
  constructor
  · intro hi
    have hp := bracketPair_of_open ht hi hj
    exact ⟨hp.lt, hp.level, fun k hik hkj => (hp.above (k + 1) (by omega) hkj).ne'⟩
  · intro hi
    have hp := bracketPair_of_close ht hi hj
    exact ⟨hp.lt, hp.level, fun k hjk hki => hp.level.trans_ne (hp.above k hjk hki.le).ne⟩

end Sys2Proof.Machine
end

section
/-! PROOFS. The scan engine (R126): its running depth is the depth of R124 relative to the level it looks for, so it
stops at the bracket's own partner. -/

namespace Sys2Proof.Machine

variable {prog : List Symbol}

/-! One equation per class of symbol, as for the resolver's scan. -/

section
variable {c : Symbol} (cs : List Symbol) (j d : Nat)

theorem scanForwardFrom_cons_open (h : decode c = .loopOpen) :
    scanForwardFrom (c :: cs) j d = scanForwardFrom cs (j + 1) (d + 1) := by
  simp [scanForwardFrom, h]

theorem scanForwardFrom_cons_close (h : decode c = .loopClose) :
    scanForwardFrom (c :: cs) j d = if d = 1 then some j else scanForwardFrom cs (j + 1) (d - 1) := by
  simp [scanForwardFrom, h]

theorem scanForwardFrom_cons_other (ho : decode c ≠ .loopOpen) (hc : decode c ≠ .loopClose) :
    scanForwardFrom (c :: cs) j d = scanForwardFrom cs (j + 1) d := by
  cases hd : decode c with
  | loopOpen => exact absurd hd ho
  | loopClose => exact absurd hd hc
  | right | left | inc | dec | output | input | nop => simp [scanForwardFrom, hd]

theorem scanBackwardFrom_cons_close (h : decode c = .loopClose) :
    scanBackwardFrom (c :: cs) d = scanBackwardFrom cs (d + 1) := by
  simp [scanBackwardFrom, h]

theorem scanBackwardFrom_cons_open (h : decode c = .loopOpen) :
    scanBackwardFrom (c :: cs) d = if d = 1 then some cs.length else scanBackwardFrom cs (d - 1) := by
  simp [scanBackwardFrom, h]

theorem scanBackwardFrom_cons_other (ho : decode c ≠ .loopOpen) (hc : decode c ≠ .loopClose) :
    scanBackwardFrom (c :: cs) d = scanBackwardFrom cs d := by
  cases hd : decode c with
  | loopOpen => exact absurd hd ho
  | loopClose => exact absurd hd hc
  | right | left | inc | dec | output | input | nop => simp [scanBackwardFrom, hd]

end

theorem decode_of_classAt {k : Nat} {x : Symbol} {i : Instr} (hx : classAt prog k = some (decode x))
    (hi : classAt prog k = some i) : decode x = i :=
  Option.some.inj (hx.symm.trans hi)

theorem not_bracketAt_of_decode {k : Nat} {x : Symbol} (hx : classAt prog k = some (decode x))
    (ho : decode x ≠ .loopOpen) (hc : decode x ≠ .loopClose) : ¬ BracketAt prog k :=
  not_or.mpr ⟨fun h => ho (decode_of_classAt hx h), fun h => hc (decode_of_classAt hx h)⟩

namespace BracketPair

variable {o c : Nat} (h : BracketPair prog o c)
include h

/-- From inside a pair, `d` opens above its level, the scan forward stops at the pair's close and not before, since
until there the depth stays above the level. -/
theorem scanForwardFrom_eq {j d : Nat} {cs : List Symbol} (hcs : prog.drop j = cs) (hoj : o < j) (hjc : j ≤ c)
    (hd : depth prog j = depth prog o + d) : scanForwardFrom cs j d = some c := by
  induction cs generalizing j d with
  | nil =>
    have := classAt_lt_length h.isClose
    have := List.drop_eq_nil_iff.mp hcs
    omega
  | cons x cs ih =>
    obtain ⟨hx, hrest⟩ := classAt_and_drop_of_cons hcs
    obtain rfl | hlt := Nat.eq_or_lt_of_le hjc
    · have := depth_succ_close h.isClose
      have := h.level
      rw [scanForwardFrom_cons_close _ _ _ (decode_of_classAt hx h.isClose), if_pos (by omega)]
    have habove := h.above (j + 1) (by omega) hlt
    by_cases ho : decode x = .loopOpen
    · have := depth_succ_open (ho ▸ hx)
      rw [scanForwardFrom_cons_open _ _ _ ho]
      exact ih hrest (by omega) hlt (by omega)
    by_cases hc : decode x = .loopClose
    · have := depth_succ_close (hc ▸ hx)
      rw [scanForwardFrom_cons_close _ _ _ hc, if_neg (by omega)]
      exact ih hrest (by omega) hlt (by omega)
    · have := depth_succ_other (not_bracketAt_of_decode hx ho hc)
      rw [scanForwardFrom_cons_other _ _ _ ho hc]
      exact ih hrest (by omega) hlt (by omega)

/-- The same backward: the scan stops at the pair's open, the last position before its inside. -/
theorem scanBackwardFrom_eq {j d : Nat} (hoj : o < j) (hjc : j ≤ c) (hd : depth prog j = depth prog o + d) :
    scanBackwardFrom (prog.take j).reverse d = some o := by
  induction j generalizing d with
  | zero => exact absurd hoj (Nat.not_lt_zero o)
  | succ j ih =>
    have hj : j < prog.length := Nat.lt_of_lt_of_le hjc (classAt_lt_length h.isClose).le
    have hx : classAt prog j = some (decode prog[j]) := by simp [classAt, hj]
    rw [List.take_succ_eq_append_getElem hj, List.reverse_append, List.reverse_singleton, List.singleton_append]
    obtain rfl | hlt := Nat.eq_or_lt_of_le (Nat.le_of_lt_succ hoj)
    · have := depth_succ_open h.isOpen
      rw [scanBackwardFrom_cons_open _ _ (decode_of_classAt hx h.isOpen), if_pos (by omega), List.length_reverse,
        List.length_take_of_le hj.le]
    have habove := h.above j hlt (by omega)
    by_cases ho : decode prog[j] = .loopOpen
    · have := depth_succ_open (ho ▸ hx)
      rw [scanBackwardFrom_cons_open _ _ ho, if_neg (by omega)]
      exact ih hlt (by omega) (by omega)
    by_cases hc : decode prog[j] = .loopClose
    · have := depth_succ_close (hc ▸ hx)
      rw [scanBackwardFrom_cons_close _ _ hc]
      exact ih hlt (by omega) (by omega)
    · have := depth_succ_other (not_bracketAt_of_decode hx ho hc)
      rw [scanBackwardFrom_cons_other _ _ ho hc]
      exact ih hlt (by omega) (by omega)

theorem scanForward_eq : scanForward prog o = some c :=
  h.scanForwardFrom_eq rfl (Nat.lt_succ_self o) h.lt (depth_succ_open h.isOpen)

theorem scanBackward_eq : scanBackward prog c = some o := by
  have := depth_succ_close h.isClose
  have := h.level
  exact h.scanBackwardFrom_eq h.lt le_rfl (by omega)

end BracketPair

/-- Settles O31: the table and the scan both answer the other bracket of the pair. -/
theorem scanEngineAgreesWithTheTable : Obligations.ScanEngineAgreesWithTheTable := by
  refine fun prog table ht => ⟨fun i ho => ?_, fun j hc => ?_⟩
  · obtain ⟨j, hj, hp⟩ := table_entry_of_open ht ho
    rw [hj, hp.scanForward_eq]
  · obtain ⟨i, hi, hp⟩ := table_entry_of_close ht hc
    rw [hi, hp.scanBackward_eq]

end Sys2Proof.Machine
end

section
/-! PROOFS. The loop instructions in a ready state (R128 to R132): the entry of a bracket is its partner, so the jump is
always there, and OPEN and CLOSE move `ip` alone. -/

namespace Sys2Proof.Machine

variable {s : State}

/-- A ready state stays ready when `ip` goes to another symbol of the program. -/
theorem ready_setIp (hr : Ready s) {p : Nat} (hp : p < s.prog.length) : Ready (s.setIp p) := by
  obtain ⟨hpointers, htape, htraces, -⟩ := legal_iff.mp hr.1
  have hfail : (s.setIp p).fail = none := (isRunning_iff.mp hr.2).1
  have hdp : (s.setIp p).dp < (s.setIp p).cfg.n := (pointersLegal_iff.mp hpointers).2
  obtain ⟨table, ht, hjt⟩ := table_of_ready hr
  exact ⟨legal_iff.mpr ⟨pointersLegal_iff.mpr ⟨hp.le, hdp⟩, htape, htraces,
    (tableLegal_of_no_failure hfail).mpr ⟨table, ht, hjt⟩⟩, isRunning_iff.mpr ⟨hfail, hp⟩⟩

theorem step_of_classAt {i : Instr} (hr : Ready s) (hi : classAt s.prog s.ip = some i) : step s = exec i s := by
  obtain ⟨c, hc, rfl⟩ := classAt_eq_some.mp hi
  exact step_of_isRunning hr.2 hc

theorem jumpEntry_of_jt {table : JumpTable} (h : s.jt = some table) : s.jumpEntry = table.entry s.ip := by
  rw [State.jumpEntry, h, Option.bind_some]

/-- In a ready state at either bracket of a pair, the entry is the other one. -/
theorem jumpEntry_of_pair (hr : Ready s) {i j : Nat} (hp : BracketPair s.prog i j) :
    (s.ip = i → s.jumpEntry = some j) ∧ (s.ip = j → s.jumpEntry = some i) := by
  obtain ⟨table, ht, hjt⟩ := table_of_ready hr
  obtain ⟨hi, hj⟩ := table_entries_of_pair ht hp
  exact ⟨fun h => by rw [jumpEntry_of_jt hjt, h, hi], fun h => by rw [jumpEntry_of_jt hjt, h, hj]⟩

/-- Settles O33: the entry is a later close, so the target lies in `ip + 2 .. L`. -/
theorem openSkipsOrEntersTheLoop : Obligations.OpenSkipsOrEntersTheLoop := by
  refine ⟨decode_eq_loopOpen.mpr rfl, fun s hr ho => ?_⟩
  obtain ⟨table, ht, hjt⟩ := table_of_ready hr
  obtain ⟨j, hj, hp⟩ := table_entry_of_open ht ho
  refine ⟨table, j, hjt, hj, hp.isClose, Nat.succ_le_succ hp.lt, classAt_lt_length hp.isClose, ?_⟩
  rw [exec_loopOpen hr, jump_of_some ((jumpEntry_of_jt hjt).trans hj)]
  split <;> rfl

/-- Settles O34: the entry is an earlier open, so the target lies in `1 .. ip`. -/
theorem closeRepeatsOrLeavesTheLoop : Obligations.CloseRepeatsOrLeavesTheLoop := by
  refine ⟨decode_eq_loopClose.mpr rfl, fun s hr hc => ?_⟩
  obtain ⟨table, ht, hjt⟩ := table_of_ready hr
  obtain ⟨i, hi, hp⟩ := table_entry_of_close ht hc
  refine ⟨table, i, hjt, hi, hp.isOpen, Nat.succ_pos i, hp.lt, ?_⟩
  rw [exec_loopClose hr, jump_of_some ((jumpEntry_of_jt hjt).trans hi), ite_not]
  split <;> rfl

/-- On a zero cell an open jumps past its close. -/
theorem step_open_of_zero (hr : Ready s) {j : Nat} (hp : BracketPair s.prog s.ip j) (hcell : s.memRead s.dp = 0) :
    step s = .next (s.setIp (j + 1)) := by
  rw [step_of_classAt hr hp.isOpen, exec_loopOpen hr, if_pos hcell, jump_of_some ((jumpEntry_of_pair hr hp).1 rfl)]

/-- On a non-zero cell an open falls through. -/
theorem step_open_of_nonzero (hr : Ready s) (ho : classAt s.prog s.ip = some .loopOpen) (hcell : s.memRead s.dp ≠ 0) :
    step s = .next s.advance := by
  rw [step_of_classAt hr ho, exec_loopOpen hr, if_neg hcell]

/-- On a non-zero cell a close jumps back to just after its open. -/
theorem step_close_of_nonzero (hr : Ready s) {i : Nat} (hp : BracketPair s.prog i s.ip) (hcell : s.memRead s.dp ≠ 0) :
    step s = .next (s.setIp (i + 1)) := by
  rw [step_of_classAt hr hp.isClose, exec_loopClose hr, if_neg hcell, jump_of_some ((jumpEntry_of_pair hr hp).2 rfl)]

/-- Settles O36: the open sees the same non-zero cell and falls through to the position the close jumps to. -/
theorem loopBackEqualsReentry : Obligations.LoopBackEqualsReentry := by
  intro s j hr hc hcell hj
  obtain ⟨table, ht, hjt⟩ := table_of_ready hr
  have hp : BracketPair s.prog j s.ip := bracketPair_of_close ht hc ((jumpEntry_of_jt hjt).symm.trans hj)
  have hback : step s = .next (s.setIp (j + 1)) := step_close_of_nonzero hr hp hcell
  have hreenter : step (s.setIp j) = .next (s.setIp (j + 1)) :=
    step_open_of_nonzero (ready_setIp hr (classAt_lt_length hp.isOpen)) hp.isOpen hcell
  exact ⟨hback.trans hreenter.symm, hback⟩

/-- A state that steps to itself stays where it is in every run. -/
theorem run_of_step_self (h : step s = .next s) (k : Nat) : core.run k s = .next s := by
  induction k with
  | zero => exact run_zero s
  | succ k ih => exact (run_succ_of_next h k).trans ih

/-- Settles O37: the brackets are a pair, so on a non-zero cell the close jumps to itself. -/
theorem emptyLoopOnANonZeroCellNeverEnds : Obligations.EmptyLoopOnANonZeroCellNeverEnds := by
  intro s hr ho hc
  have hp := bracketPair_succ ho hc
  refine ⟨step_open_of_zero hr hp, fun hcell k => ?_⟩
  have hself : step (s.setIp (s.ip + 1)) = .next (s.setIp (s.ip + 1)) :=
    step_close_of_nonzero (ready_setIp hr (classAt_lt_length hc)) hp hcell
  exact (run_succ_of_next (step_open_of_nonzero hr ho hcell) k).trans (run_of_step_self hself k)

end Sys2Proof.Machine
end

section
/-! PROOFS. The streams (`44_io.md`): what the formatter emits for each byte (R143, R144), and OUT and IN in a ready
state, one lemma for each answer of the environment (R140 to R142). -/

namespace Sys2Proof.Machine

/-! The formatter. -/

theorem displayable_iff {b : Byte} :
    displayable b = true ↔ 9 ≤ b.toNat ∧ b.toNat ≤ 13 ∨ 32 ≤ b.toNat ∧ b.toNat ≤ 126 := by
  simp [displayable]

theorem fmt_of_displayable {b : Byte} (h : displayable b = true) (glyph : Byte) : fmt glyph b = b :=
  if_pos h

theorem fmt_of_not_displayable {b : Byte} (h : ¬ displayable b = true) (glyph : Byte) : fmt glyph b = glyph :=
  if_neg h

/-- What was formatted with a displayable placeholder is displayable. -/
theorem displayable_fmt {glyph : Byte} (h : displayable glyph = true) (b : Byte) :
    displayable (fmt glyph b) = true := by
  by_cases hb : displayable b = true
  · rwa [fmt_of_displayable hb]
  · rwa [fmt_of_not_displayable hb]

/-- The displayable codes are two disjoint intervals. -/
theorem filter_displayable : (Finset.range 256).filter (fun k => displayable (BitVec.ofNat 8 k) = true) =
    Finset.Icc 9 13 ∪ Finset.Icc 32 126 := by
  ext k
  simp only [Finset.mem_filter, Finset.mem_range, displayable_iff, BitVec.toNat_ofNat, Finset.mem_union, Finset.mem_Icc]
  omega

theorem countP_range_eq_card (p : Nat → Bool) (n : Nat) :
    (List.range n).countP p = ((Finset.range n).filter fun k => p k = true).card := by
  rw [← Nat.count_eq_card_filter_range, Nat.count]
  simp

/-- R144: the intervals have 5 and 95 members. -/
theorem countP_displayable : (List.range 256).countP (fun k => displayable (BitVec.ofNat 8 k)) = 100 := by
  have hdisjoint : Disjoint (Finset.Icc 9 13) (Finset.Icc 32 126) :=
    Finset.disjoint_left.mpr fun k h h' => by
      rw [Finset.mem_Icc] at h h'
      omega
  rw [countP_range_eq_card, filter_displayable, Finset.card_union_of_disjoint hdisjoint, Nat.card_Icc, Nat.card_Icc]

/-- Settles O38: the bytes that are replaced are those between and around the two displayable ranges. -/
theorem formatterPassesDisplayableBytes : Obligations.FormatterPassesDisplayableBytes := by
  refine ⟨fun glyph b => ⟨fun hb => ?passes, fun hb => ?replaced, fun hg => ?twice⟩, countP_displayable⟩
  case passes => exact fmt_of_displayable (displayable_iff.mpr hb) glyph
  case replaced =>
    refine fmt_of_not_displayable (fun hd => ?_) glyph
    have := displayable_iff.mp hd
    omega
  case twice => exact fmt_of_displayable (displayable_fmt hg b) glyph

/-! The instructions, for each answer (the unanswered request is in `exec_output_waits` and `exec_input_waits`). -/

section
variable {s : State} (hr : Ready s)
include hr

theorem exec_output_accepted {k : Script OutAnswer} (h : s.sink.request = some (.accept, k)) :
    exec .output s = .next ((s.setSink k).emit (fmt s.cfg.glyph s.cell) s.cell).advance := by
  rw [exec, execOutput, whenRunning_ready hr, h]

theorem exec_output_rejected {k : Script OutAnswer} (h : s.sink.request = some (.reject, k)) :
    exec .output s = .next (s.raise (.outputFailure s.ip)) := by
  rw [exec, execOutput, whenRunning_ready hr, h]

theorem exec_input_byte {b : Byte} {k : Script InAnswer} (h : s.inp.request = some (.byte b, k)) :
    exec .input s = .next ((s.setInp k).setCell b).advance := by
  rw [exec, execInput, whenRunning_ready hr, h]

theorem exec_input_eof_absorbed {k : Script InAnswer} (h : s.inp.request = some (.eof, k))
    (hp : s.cfg.eofPolicy = .leaveUnchanged) : exec .input s = .next (s.setInp k).advance := by
  rw [exec, execInput, whenRunning_ready hr, h, hp]

theorem exec_input_eof_fails {k : Script InAnswer} (h : s.inp.request = some (.eof, k))
    (hp : s.cfg.eofPolicy = .fail) : exec .input s = .next (s.raise (.inputExhausted s.ip)) := by
  rw [exec, execInput, whenRunning_ready hr, h, hp]

end

/-- Settles O40. -/
theorem outEmitsTheFormattedCell : Obligations.OutEmitsTheFormattedCell :=
  ⟨decode_eq_output.mpr rfl, fun _ _ hr =>
    ⟨exec_output_accepted hr, exec_output_rejected hr, exec_output_waits hr⟩⟩

/-- Settles O41: the tape of a ready state is canonical, so the byte stored reads back, and the store changes no other
cell. -/
theorem inStoresTheByteOrFollowsThePolicy : Obligations.InStoresTheByteOrFollowsThePolicy := by
  refine ⟨decode_eq_input.mpr rfl, fun s k hr =>
    ⟨fun b h => ?byte, exec_input_eof_absorbed hr, exec_input_eof_fails hr, exec_input_waits hr⟩⟩
  obtain ⟨-, htape, -, -⟩ := legal_iff.mp hr.1
  have hfail : s.fail = none := (isRunning_iff.mp hr.2).1
  exact ⟨_, exec_input_byte hr h, memRead_memWrite_same htape s.dp b, memWrite_sameCellsBut s s.dp b, rfl, rfl, rfl,
    hfail, ⟨rfl, rfl, rfl⟩, rfl, rfl, rfl⟩

end Sys2Proof.Machine
end

section
/-! PROOFS. Noninterference of the placeholder (R145, R146): `withGlyph` keeps the legality of a state, so the guard
decides the same, and it commutes with every effect an instruction can have. -/

namespace Sys2Proof.Machine

/-! The fields an instruction reads. -/

section
variable {s : State} (g : Byte)

@[simp] theorem withGlyph_prog : (withGlyph g s).prog = s.prog := rfl
@[simp] theorem withGlyph_inp : (withGlyph g s).inp = s.inp := rfl
@[simp] theorem withGlyph_sink : (withGlyph g s).sink = s.sink := rfl
@[simp] theorem withGlyph_eofPolicy : (withGlyph g s).cfg.eofPolicy = s.cfg.eofPolicy := rfl
@[simp] theorem withGlyph_fail : (withGlyph g s).fail = s.fail := rfl
@[simp] theorem withGlyph_jumpEntry : (withGlyph g s).jumpEntry = s.jumpEntry := rfl
@[simp] theorem withGlyph_fetch : (withGlyph g s).fetch = s.fetch := rfl

/-! Legality. -/

theorem withGlyph_tracesLegal : (withGlyph g s).tracesLegal = true :=
  tracesLegal_iff.mpr rfl

/-- A state with a construction failure has emitted nothing, so there is nothing to format anew. -/
theorem withGlyph_pristine (h : s.pristine = true) : (withGlyph g s).pristine = true := by
  simp only [State.pristine, Bool.and_eq_true, decide_eq_true_eq] at h ⊢
  obtain ⟨⟨hpointers, -⟩, hraw⟩ := h
  exact ⟨⟨hpointers, List.map_eq_nil_iff.mpr hraw⟩, hraw⟩

theorem withGlyph_tableLegal (h : s.tableLegal = true) : (withGlyph g s).tableLegal = true := by
  unfold State.tableLegal at h ⊢
  rw [withGlyph_prog]
  cases hres : resolve s.prog with
  | table t => simp only [hres] at h ⊢; exact h
  | malformed e =>
    simp only [hres, Bool.and_eq_true] at h ⊢
    exact ⟨h.1, withGlyph_pristine g h.2⟩

theorem withGlyph_legal (h : s.legal = true) : (withGlyph g s).legal = true := by
  obtain ⟨hpointers, htape, -, htable⟩ := legal_iff.mp h
  exact legal_iff.mpr ⟨hpointers, htape, withGlyph_tracesLegal g, withGlyph_tableLegal g htable⟩

/-! The guard. -/

theorem mapNext_noStep (f : State → State) (s : State) : mapNext f (noStep s) = noStep s := by
  cases h : noStep s with
  | next t => exact absurd h (noStep_ne_next s t)
  | fault | refused => rfl

theorem noStep_withGlyph (h : s.legal = true) : noStep (withGlyph g s) = mapNext (withGlyph g) (noStep s) := by
  rw [mapNext_noStep, noStep, noStep, if_pos h, if_pos (withGlyph_legal g h), withGlyph_fail]

/-- The guard lets an effect run in both states or in neither. -/
theorem whenRunning_withGlyph (h : s.legal = true) {effect effect' : Result}
    (he : effect' = mapNext (withGlyph g) effect) :
    whenRunning (withGlyph g s) effect' = mapNext (withGlyph g) (whenRunning s effect) := by
  by_cases hr : Ready s
  · have hr' : Ready (withGlyph g s) := ⟨withGlyph_legal g h, hr.2⟩
    rw [whenRunning_ready hr, whenRunning_ready hr', he]
  · have hr' : ¬ Ready (withGlyph g s) := fun h' => hr ⟨h, h'.2⟩
    rw [whenRunning_of_not_ready hr, whenRunning_of_not_ready hr', noStep_withGlyph g h]

/-! The effects. All but the appends of `.` write fields that `withGlyph` leaves alone, and commute with it by
definition. -/

theorem emit_withGlyph (s : State) (v : Byte) :
    (withGlyph g s).emit (fmt g v) v = withGlyph g (s.emit (fmt s.cfg.glyph v) v) := by
  simp [withGlyph, State.emit]

theorem jump_withGlyph (s : State) : jump (withGlyph g s) = mapNext (withGlyph g) (jump s) := by
  rw [jump, jump, withGlyph_jumpEntry]
  cases s.jumpEntry <;> rfl

/-- The case analysis over the instructions: under the guard each one's effect commutes with `withGlyph`. -/
theorem exec_withGlyph (h : s.legal = true) (i : Instr) :
    exec i (withGlyph g s) = mapNext (withGlyph g) (exec i s) := by
  cases i with
  | right | left | inc | dec | nop => exact whenRunning_withGlyph g h rfl
  | loopOpen | loopClose =>
    refine whenRunning_withGlyph g h ?_
    rw [apply_ite (mapNext (withGlyph g)), ← jump_withGlyph]
    rfl
  | output =>
    refine whenRunning_withGlyph g h ?_
    rw [withGlyph_sink]
    obtain _ | ⟨_ | _, k⟩ := s.sink.request
    · rfl
    · exact congrArg (fun t => Host.Outcome.next (State.advance t)) (emit_withGlyph g (s.setSink k) s.cell)
    · rfl
  | input =>
    refine whenRunning_withGlyph g h ?_
    rw [withGlyph_inp, withGlyph_eofPolicy]
    obtain _ | ⟨b | _, k⟩ := s.inp.request
    · rfl
    · rfl
    · cases s.cfg.eofPolicy <;> rfl

end

/-- Settles O43: both states fetch the same symbol, or neither fetches one. -/
theorem placeholderIsUnobservable : Obligations.PlaceholderIsUnobservable := by
  intro s g h
  rw [step, step, withGlyph_fetch]
  cases s.fetch with
  | none => exact noStep_withGlyph g h
  | some c => exact exec_withGlyph g h (decode c)

end Sys2Proof.Machine
end

section
/-! PROOFS. The ignore class (R150, R151). The resolver's scan of a program without its NOPs goes through the same
steps as the scan of the program, with every position replaced by the number of symbols kept before it. -/

namespace Sys2Proof.Machine

variable {prog : List Symbol}

/-- A program with its NOPs taken out. -/
def withoutNops (prog : List Symbol) : List Symbol :=
  prog.filter fun c => !isIgnored c

/-- The symbols before position `k` that are no NOPs: where the symbol at `k` stands once the NOPs are out. -/
def keptBefore (prog : List Symbol) (k : Nat) : Nat :=
  (prog.take k).countP fun c => !isIgnored c

/-- A resolution with every position in it moved. -/
def Resolution.relocate (f : Nat → Nat) : Resolution → Resolution
  | .table t => .table (t.map (Prod.map f f))
  | .malformed (.unmatchedClose p) => .malformed (.unmatchedClose (f p))
  | .malformed (.unmatchedOpen p) => .malformed (.unmatchedOpen (f p))

theorem relocate_toTable? (f : Nat → Nat) (r : Resolution) :
    (r.relocate f).toTable? = r.toTable?.map (List.map (Prod.map f f)) := by
  cases r with
  | table => rfl
  | malformed e => cases e <;> rfl

/-- A moved table answers the moved position of an entry, where no other entry is moved to the same place. -/
theorem entry_map_of_entry {f : Nat → Nat} {t : JumpTable} {i j : Nat}
    (hf : ∀ p, (t.entry p).isSome = true → f p = f i → p = i) (h : t.entry i = some j) :
    JumpTable.entry (t.map (Prod.map f f)) (f i) = some (f j) := by
  induction t with
  | nil => cases h
  | cons e t ih =>
    obtain ⟨a, b⟩ := e
    rw [List.map_cons, Prod.map_apply, entry_cons]
    rw [entry_cons] at h
    by_cases hia : i = a
    · rw [if_pos hia] at h
      rw [if_pos (congrArg f hia), Option.some.inj h]
    · have hne : f i ≠ f a := fun heq => hia (hf a (entry_cons_isSome.mpr (.inl rfl)) heq.symm).symm
      rw [if_neg hia] at h
      rw [if_neg hne]
      exact ih (fun p hp => hf p (entry_cons_isSome.mpr (.inr hp))) h

/-! Which symbols are kept. -/

theorem isIgnored_iff {c : Symbol} : isIgnored c = true ↔ c ∉ alphabet := by
  simp [isIgnored]

theorem not_isIgnored_of_bracket {c : Symbol} (h : decode c = .loopOpen ∨ decode c = .loopClose) :
    ¬ isIgnored c = true := by
  rw [isIgnored_iff]
  intro hc
  simp [decode_of_notMem_alphabet hc] at h

theorem withoutNops_cons_ignored {c : Symbol} (h : isIgnored c = true) (cs : List Symbol) :
    withoutNops (c :: cs) = withoutNops cs :=
  List.filter_cons_of_neg (by simp [h])

theorem withoutNops_cons_kept {c : Symbol} (h : ¬ isIgnored c = true) (cs : List Symbol) :
    withoutNops (c :: cs) = c :: withoutNops cs :=
  List.filter_cons_of_pos (by simp [h])

theorem keptBefore_succ_ignored {k : Nat} {c : Symbol} (hk : prog[k]? = some c) (hc : isIgnored c = true) :
    keptBefore prog (k + 1) = keptBefore prog k := by
  simp [keptBefore, List.take_add_one, hk, hc]

theorem keptBefore_succ_kept {k : Nat} {c : Symbol} (hk : prog[k]? = some c) (hc : ¬ isIgnored c = true) :
    keptBefore prog (k + 1) = keptBefore prog k + 1 := by
  simp [keptBefore, List.take_add_one, hk, hc]

theorem keptBefore_succ_bracket {p : Nat} (hp : BracketAt prog p) :
    keptBefore prog (p + 1) = keptBefore prog p + 1 := by
  obtain h | h := hp <;> obtain ⟨c, hc, hd⟩ := classAt_eq_some.mp h
  · exact keptBefore_succ_kept hc (not_isIgnored_of_bracket (.inl hd))
  · exact keptBefore_succ_kept hc (not_isIgnored_of_bracket (.inr hd))

theorem keptBefore_mono {k m : Nat} (h : k ≤ m) : keptBefore prog k ≤ keptBefore prog m :=
  (List.take_sublist_take_left h).countP_le

theorem keptBefore_lt_of_bracketAt {p q : Nat} (hp : BracketAt prog p) (hpq : p < q) :
    keptBefore prog p < keptBefore prog q :=
  calc keptBefore prog p < keptBefore prog (p + 1) := by rw [keptBefore_succ_bracket hp]; exact Nat.lt_succ_self _
    _ ≤ keptBefore prog q := keptBefore_mono hpq

/-- No two brackets come to stand at one position. -/
theorem eq_of_keptBefore_eq {p q : Nat} (hp : BracketAt prog p) (hq : BracketAt prog q)
    (h : keptBefore prog p = keptBefore prog q) : p = q := by
  rcases Nat.lt_trichotomy p q with hlt | heq | hlt
  · exact absurd h (keptBefore_lt_of_bracketAt hp hlt).ne
  · exact heq
  · exact absurd h (keptBefore_lt_of_bracketAt hq hlt).ne'

/-- The simulation of the two scans: a NOP is a step of the longer one alone, every other symbol a step of both. -/
theorem resolveFrom_withoutNops {cs : List Symbol} {i : Nat} (hcs : prog.drop i = cs) (stack : List Nat)
    (t : JumpTable) :
    resolveFrom (withoutNops cs) (keptBefore prog i) (stack.map (keptBefore prog))
        (t.map (Prod.map (keptBefore prog) (keptBefore prog))) =
      (resolveFrom cs i stack t).relocate (keptBefore prog) := by
  induction cs generalizing i stack t with
  | nil => cases stack <;> rfl
  | cons c cs ih =>
    have hc : prog[i]? = some c := by rw [← List.head?_drop, hcs, List.head?_cons]
    have hrest : prog.drop (i + 1) = cs := (classAt_and_drop_of_cons hcs).2
    by_cases hign : isIgnored c = true
    · have hnop := decode_of_notMem_alphabet (isIgnored_iff.mp hign)
      rw [withoutNops_cons_ignored hign, resolveFrom_cons_other (by simp [hnop]) (by simp [hnop]),
        ← keptBefore_succ_ignored hc hign]
      exact ih hrest stack t
    have hsucc := keptBefore_succ_kept hc hign
    rw [withoutNops_cons_kept hign]
    by_cases ho : decode c = .loopOpen
    · rw [resolveFrom_cons_open ho, resolveFrom_cons_open ho, ← hsucc]
      exact ih hrest (i :: stack) t
    by_cases hcl : decode c = .loopClose
    · cases stack with
      | nil => rw [List.map_nil, resolveFrom_cons_close_empty hcl, resolveFrom_cons_close_empty hcl]; rfl
      | cons o below =>
        rw [List.map_cons, resolveFrom_cons_close hcl, resolveFrom_cons_close hcl, ← hsucc]
        exact ih hrest below ((i, o) :: (o, i) :: t)
    · rw [resolveFrom_cons_other ho hcl, resolveFrom_cons_other ho hcl, ← hsucc]
      exact ih hrest stack t

theorem resolve_withoutNops (prog : List Symbol) :
    resolve (withoutNops prog) = (resolve prog).relocate (keptBefore prog) :=
  resolveFrom_withoutNops (i := 0) rfl [] []

/-- Settles O32: the entries of a table are brackets, and taking the NOPs out keeps brackets apart. -/
theorem nopsAreInvisibleToMatching : Obligations.NopsAreInvisibleToMatching := by
  intro prog
  have hres : resolve (prog.filter fun c => !isIgnored c) = (resolve prog).relocate (keptBefore prog) :=
    resolve_withoutNops prog
  refine ⟨?wellFormed, fun table ht => ⟨table.map (Prod.map (keptBefore prog) (keptBefore prog)), ?resolved, ?paired⟩⟩
  case wellFormed => rw [programWellFormed, hres, relocate_toTable?, Option.isSome_map, programWellFormed]
  case resolved => rw [hres, ht]; rfl
  case paired =>
    intro i j hij
    have hi : BracketAt prog i := (resolve_entry_isSome ht i).mp (Option.isSome_of_eq_some hij)
    exact entry_map_of_entry (fun p hp => eq_of_keptBefore_eq ((resolve_entry_isSome ht p).mp hp) hi) hij

theorem exec_nop {s : State} (h : Ready s) (c : Symbol) : exec (.nop c) s = .next s.advance :=
  whenRunning_ready h _

/-- Settles O44: a NOP's effect is the advance of `ip`. -/
theorem nopOnlyAdvances : Obligations.NopOnlyAdvances :=
  fun c hc => ⟨decode_of_notMem_alphabet hc, fun _ h => exec_nop h c⟩

end Sys2Proof.Machine
end

section
/-! PROOFS. The failures (`60_exceptions.md`): a step raises one alone, at its own position (R162, R163, R166), so the
failure register of a reachable state names its cause. -/

namespace Sys2Proof.Machine

/-- Only a rejected write and an end of input under the failing policy raise a failure; every other effect leaves the
failure register as it was. -/
theorem exec_keeps_fail_or_raises {i : Instr} {s t : State} (h : exec i s = .next t) :
    t.fail = s.fail ∨ (i = .output ∧ t = s.raise (.outputFailure s.ip)) ∨
      (i = .input ∧ s.cfg.eofPolicy = .fail ∧ t = s.raise (.inputExhausted s.ip)) := by
  obtain ⟨-, he⟩ := exec_next h
  cases i with
  | output =>
    simp only [reduceCtorEq, false_and, false_or, or_false, true_and, exists_false] at he
    obtain ⟨-, ht⟩ | ⟨k, -, rfl⟩ := he
    · exact .inr (.inl ⟨rfl, ht⟩)
    · exact .inl rfl
  | input =>
    simp only [reduceCtorEq, false_and, false_or, or_false, true_and, exists_false] at he
    obtain ⟨b, k, -, rfl⟩ | ⟨-, k, -, rfl⟩ | ⟨hp, -, ht⟩ := he
    · exact .inl rfl
    · exact .inl rfl
    · exact .inr (.inr ⟨rfl, hp, ht⟩)
  | _ => exact .inl ((exec_classEffect h).fail_eq nofun nofun)

/-- Settles O45: a state with a next state has no failure, so a failure of the next state is one the step raised. -/
theorem failureEntryIsPrecise : Obligations.FailureEntryIsPrecise := by
  intro s t h
  have hs : s.fail = none := fail_of_step h
  obtain ⟨c, hc, he⟩ := step_next h
  have hclass : classAt s.prog s.ip = some (decode c) := classAt_eq_some.mpr ⟨c, hc, rfl⟩
  refine ⟨hs, fun f hf => ?_⟩
  obtain hkeep | ⟨hd, rfl⟩ | ⟨hd, hp, rfl⟩ := exec_keeps_fail_or_raises he
  · simp [hkeep, hs] at hf
  · cases hf
    exact ⟨rfl, .inl ⟨rfl, hd ▸ hclass⟩⟩
  · cases hf
    exact ⟨rfl, .inr ⟨rfl, hd ▸ hclass, hp⟩⟩

/-- In `t` a failure has the cause its diagnostic names: the resolver's error, or the instruction at `ip`
(R161 to R163). -/
def Failure.CausedIn (t : State) : Failure → Prop
  | .malformedProgram e => resolve t.prog = .malformed e
  | .inputExhausted p => t.ip = p ∧ classAt t.prog p = some .input ∧ t.cfg.eofPolicy = .fail
  | .outputFailure p => t.ip = p ∧ classAt t.prog p = some .output

theorem constructed_causedIn {cfg : Config} {prog : List Symbol} {inp : Script InAnswer} {sink : Script OutAnswer}
    {f : Failure} (h : (constructed cfg prog inp sink).fail = some f) :
    f.CausedIn (constructed cfg prog inp sink) := by
  change (resolve prog).failure? = some f at h
  cases hres : resolve prog with
  | table => rw [hres] at h; cases h
  | malformed e => rw [hres] at h; cases h; exact hres

theorem step_causedIn {s t : State} (h : step s = .next t) {f : Failure} (hf : t.fail = some f) : f.CausedIn t := by
  obtain ⟨rfl, ⟨rfl, hclass⟩ | ⟨rfl, hclass, hp⟩⟩ := (failureEntryIsPrecise s t h).2 f hf
  · exact ⟨rfl, hclass⟩
  · exact ⟨rfl, hclass, hp⟩

theorem causedIn_of_reachable {t : State} (h : Reachable t) {f : Failure} (hf : t.fail = some f) : f.CausedIn t := by
  obtain ⟨cfg, prog, inp, sink, s, hs, hl⟩ := h
  obtain ⟨-, rfl⟩ := construct_next hs
  exact hl.induct (P := fun u => ∀ f, u.fail = some f → f.CausedIn u) (fun _ => constructed_causedIn)
    (fun _ _ _ hab _ => step_causedIn hab) f hf

/-- Settles O46: each clause is `Failure.CausedIn` of its reason. -/
theorem reachableFailuresPointAtTheirCause : Obligations.ReachableFailuresPointAtTheirCause := fun _ h =>
  ⟨fun _ => causedIn_of_reachable h, fun _ => causedIn_of_reachable h, fun _ => causedIn_of_reachable h⟩

end Sys2Proof.Machine
end

section
/-! PROOFS. Reset (`70_reset_and_hazards.md`): a construction is refused for an empty tape and for no other reason
(R192). -/

namespace Sys2Proof.Machine

/-- R192: with no cells there is no valid `dp`, so construction answers no state. -/
theorem construct_of_n_eq_zero {cfg : Config} (hn : cfg.n = 0) (prog : List Symbol) (inp : Script InAnswer)
    (sink : Script OutAnswer) : construct cfg prog inp sink = .refused .zeroLengthTape :=
  if_pos hn

/-- Settles O8: the test for an empty tape is the only one a construction makes. -/
theorem constructionRefusesAnEmptyTape : Obligations.ConstructionRefusesAnEmptyTape := fun cfg prog inp sink =>
  ⟨fun hn => construct_of_n_eq_zero hn prog inp sink,
    fun hn => ⟨constructed cfg prog inp sink, construct_of_pos hn⟩⟩

end Sys2Proof.Machine
end
